-- ==== Sys2Proof/Word.lean ====
section
/-! DEFINITION. The value types of the spec (00_scope.md R10): bytes, 32-bit words, 64-bit command and response words. -/

namespace Sys2Proof

/-- An 8-bit unsigned value (R10). -/
abbrev Byte := BitVec 8

/-- A 32-bit unsigned value (R3, R10). -/
abbrev Word32 := BitVec 32

/-- A command, payload or response word (R10, R60). -/
abbrev Word64 := BitVec 64

end Sys2Proof
end

