-- ==== Sys2Proof/Machine/Flags.lean ====
section
/-! DEFINITION. There are no status flags (10_state.md R31): the status of a command lives only in its response word.
Here: the status codes (30_encoding.md R74), the response word (R73) and its decoder (93 U8). -/

namespace Sys2Proof.Machine

/-- STATUS by name (R74). -/
inductive Status where
  | ok
  | eConfig
  | eShort
  | eUninit
  | eMismatch
  | eIllegal
  | eNoConfig
  deriving DecidableEq, Repr

/-- The code of a status (R74). -/
def statusCode : Status → BitVec 4
  | .ok => 0
  | .eConfig => 1
  | .eShort => 2
  | .eUninit => 3
  | .eMismatch => 4
  | .eIllegal => 5
  | .eNoConfig => 6

/-- The status a code names; codes 7 to 15 are never produced and are refused (R74, 93 U8). -/
def statusOfCode (c : BitVec 4) : Option Status :=
  [Status.ok, .eConfig, .eShort, .eUninit, .eMismatch, .eIllegal, .eNoConfig].find? fun st => statusCode st == c

/-- The response word: zero in r[63:36], STATUS in r[35:32], DATA in r[31:0] (R73). -/
def responseWord (st : Status) (data : Word32) : Word64 := 0#28 ++ statusCode st ++ data

/-- What a response word says, if it is one (R73, R74). -/
def decodeResponse (r : Word64) : Option (Status × Word32) :=
  if r.extractLsb' 36 28 = 0#28 then
    (statusOfCode (r.extractLsb' 32 4)).map fun st => (st, r.extractLsb' 0 32)
  else none

end Sys2Proof.Machine
end

