-- ==== Sys2Proof/Machine/Hash.lean ====
section
/-! DEFINITION. `rotation_update_logic`: the rotation (00_scope.md R12), the hash of a window (41_seed.md R85) and the
rotate-update (42_rotate.md R95). The table is an argument (R7). -/

namespace Sys2Proof.Machine

/-- Circular left rotation by any natural amount; left is toward the more significant bits (R12, log 5). -/
def rotl32 (x : Word32) (k : Nat) : Word32 :=
  if k % 32 = 0 then x else (x <<< (k % 32)) ||| (x >>> (32 - k % 32))

/-- The exclusive-or of the terms of R85 for the bytes `bs` at positions `i`, `i + 1`, ... of a window of length `w`. -/
def hashTerms (T : Byte → Word32) (w : Nat) : Nat → List Byte → Word32
  | _, [] => 0
  | i, b :: bs => rotl32 (T b) ((w - 1 - i) % 32) ^^^ hashTerms T w (i + 1) bs

/-- `HashOf(T, w, win)`, for a window of exactly `w` bytes, oldest first (R85). -/
def hashOf (T : Byte → Word32) (w : Nat) (win : List Byte) : Word32 := hashTerms T w 0 win

/-- `RotStep(T, w, h, l, e)` (R95). -/
def rotStep (T : Byte → Word32) (w : Nat) (h : Word32) (l e : Byte) : Word32 :=
  rotl32 h 1 ^^^ rotl32 (T l) (w % 32) ^^^ T e

end Sys2Proof.Machine
end

