-- ==== Sys2Proof/Config.lean ====
section
/-! DEFINITION. What one part of this hardware fixes and the spec leaves open: TABLE, WMAX, N_ENGINES and RESP_DEPTH
(00_scope.md R6 to R8, 70_reset_and_hazards.md R139). -/

namespace Sys2Proof

/-- The parameters a part is made with. A `Machine.State` carries one, no step changes it, and statements quantify over
it (log 1). N_ENGINES is not here: it is the number of instances a state holds. -/
structure Part where
  /-- WMAX: the capacity of `window_buffer` in bytes (R6). -/
  wmax : Nat
  /-- RESP_DEPTH: how many responses a port buffers (R139). -/
  respDepth : Nat
  /-- `table_rom`, whose contents are TABLE: a total function of the 256 byte values (R7, R30, R41). -/
  rom : Vector Word32 256
  deriving DecidableEq, Repr

/-- The limits the spec sets on the parameters: 1 <= WMAX <= 2^32 - 1 (R6) and RESP_DEPTH >= 1 (R139). -/
abbrev Part.Legal (p : Part) : Prop :=
  1 ≤ p.wmax ∧ p.wmax ≤ 2 ^ 32 - 1 ∧ 1 ≤ p.respDepth

/-- TABLE (R7): no source gives its values, so it has none here. -/
opaque Config.table : Vector Word32 256

/-- A free natural from which `Config.wmax` is made. -/
opaque Config.wmaxFree : Nat

/-- A free natural from which `Config.respDepth` is made. -/
opaque Config.respDepthFree : Nat

/-- N_ENGINES less one (R8: N_ENGINES >= 1). -/
opaque Config.moreEngines : Nat

/-- WMAX (R6): any value in 1 .. 2^32 - 1, and nothing says which. -/
def Config.wmax : Nat := 1 + Config.wmaxFree % (2 ^ 32 - 1)

/-- RESP_DEPTH (R139): any value >= 1, and nothing says which. -/
def Config.respDepth : Nat := 1 + Config.respDepthFree

/-- N_ENGINES (R8). -/
def Config.nEngines : Nat := 1 + Config.moreEngines

/-- The part that `Machine.State.reset` is a state of. -/
def Config.part : Part :=
  { wmax := Config.wmax, respDepth := Config.respDepth, rom := Config.table }

end Sys2Proof
end

