-- ==== Sys2Proof/Machine/State.lean ====
section
/-! DEFINITION. The state of the hardware (10_state.md R22 to R33; the ports: 30_encoding.md R60, 70_reset_and_hazards.md
R130, R139, R140) and the reasons a step can stop. -/

namespace Sys2Proof.Machine

/-- Why the machine stops. The spec has no fault (60_exceptions.md R110): both constructors are reached only from states
or terms that no run from reset reaches. -/
inductive Fault where
  /-- Raised by SEED, ROTATE and ROTATE_CHECKED when they would form a BUF index at or above WMAX, an index outside the
  address space (20_memory.md R43: "the engine forms no other index"). Safe (log 3). -/
  | bufIndexOutOfRange (index : Nat)
  /-- Raised by SEED when the term does not carry the payload bytes its N announces: the payload "never arrives"
  (93_implementation_defined.md U6, stuck). Never raised by a step, which frames the payload first. Safe (log 4). -/
  | payloadMissing
  deriving DecidableEq, Repr

/-- Why an instruction has no meaning here. -/
inductive Refusal where
  /-- Raised by `exec`'s arm of an instruction that has no meaning yet; no arm is one. Safe. -/
  | notModelled (mnemonic : String)
  deriving DecidableEq, Repr

/-- STATE, the lifecycle state (R23). No command exposes its encoding, so it is a name here. -/
inductive Lifecycle where
  | unconfigured
  | unseeded
  | seeded
  deriving DecidableEq, Repr

/-- The contents of `window_buffer`'s storage: (index, byte) cells in canonical form (`Memory.wf`). -/
abbrev Memory := List Host.Cell

/-- The registers of one engine instance: exactly the state of R22. -/
structure Engine where
  /-- STATE (R23). -/
  state : Lifecycle
  /-- WLEN (R24). -/
  wlen : Word32
  /-- HASH (R25). -/
  hash : Word32
  /-- BUF (R26). -/
  buf : Memory
  /-- PTR (R28). -/
  ptr : Nat
  deriving DecidableEq, Repr

/-- A command whose words a port has begun to accept (R60, R67, R130). -/
structure Frame where
  /-- The command word. -/
  header : Word64
  /-- The payload words accepted so far, in order. -/
  payload : List Word64
  /-- How many payload words are still to come. -/
  missing : Nat
  deriving DecidableEq, Repr

/-- A response on its way out, with the host it goes to (20_memory.md R51). -/
structure Response where
  host : Nat
  word : Word64
  deriving DecidableEq, Repr

/-- One engine instance with its ports (R60, 60_exceptions.md R125). -/
structure Inst where
  /-- The registers. -/
  eng : Engine
  /-- The host that holds the port: the sender of the command being accepted or last executed (20_memory.md R51, log 10). -/
  owner : Nat
  /-- The command being accepted, if there is one. -/
  rx : Option Frame
  /-- The responses not yet taken by their hosts, oldest first (R73, R139). -/
  resp : List Response
  /-- The model's own trace: the responses the hosts have taken since reset, oldest first (R141, log 11). -/
  taken : List Response
  deriving DecidableEq, Repr

/-- What a host does (70_reset_and_hazards.md R140). -/
inductive HostEvent where
  /-- Host `host` offers a word on the `cmd` port of instance `inst`. -/
  | send (host inst : Nat) (word : Word64)
  /-- Host `host` takes the next response of instance `inst`. -/
  | take (host inst : Nat)
  /-- The level of `rst` becomes `level`. -/
  | rst (level : Bool)
  deriving DecidableEq, Repr

/-- The hardware. Its instances, numbered from 0, are `below ++ cur :: above`; `cur` is the one whose port last moved, and
it is the one a command executes on (log 8). There is always at least one instance (R8). -/
structure State where
  /-- The parameters of the part, `table_rom` among them: shared by all instances (R30, log 1). -/
  part : Part
  below : List Inst
  cur : Inst
  above : List Inst
  /-- The level of the `rst` input (R60, R130, log 12). -/
  rst : Bool
  /-- The model's own: what the hosts do next, oldest first (log 6). -/
  inputs : List HostEvent
  deriving DecidableEq, Repr

/-- The registers after reset (R33, R131). BUF lists nothing, so every entry reads 0x00 (log 2). -/
def Engine.reset : Engine :=
  { state := .unconfigured, wlen := 0, hash := 0, buf := [], ptr := 0 }

/-- An instance after reset: no partly accepted command, no response waiting (R130, R131). -/
def Inst.reset : Inst :=
  { eng := Engine.reset, owner := 0, rx := none, resp := [], taken := [] }

/-- The hardware with the parameters `p` and `1 + more` instances, right after `rst` is released (R125, R131, R132). -/
def State.resetOf (p : Part) (more : Nat) : State :=
  { part := p, below := [], cur := Inst.reset, above := List.replicate more Inst.reset, rst := false, inputs := [] }

/-- The machine right after reset. -/
def State.reset : State := State.resetOf Config.part Config.moreEngines

end Sys2Proof.Machine
end

