-- ==== Sys2Proof/Machine/Ops.lean ====
section
/-! DEFINITION. The named operations over `window_buffer`, `table_rom`, the registers and the response port, and the one
way a command ends in an error (60_exceptions.md R111). -/

namespace Sys2Proof.Machine

/-! ### window_buffer -/

/-- What an unlisted BUF entry reads as (log 2; CONFIG clears entries to the same value, 40_configure.md R80). -/
def Memory.blank : Byte := 0

/-- The canonical form: indexes strictly rising, and no cell holding what an unlisted index reads as. -/
abbrev Memory.wf (m : Memory) : Prop :=
  m.Pairwise (fun a b => a.1 < b.1) ∧ ∀ c ∈ m, c.2 ≠ Memory.blank

/-- `BUF[j]`, `MemRead(BUF, j, 1)` (20_memory.md R43). -/
def Memory.read : Memory → Nat → Byte
  | [], _ => Memory.blank
  | (a, b) :: m, j => if a = j then b else Memory.read m j

/-- A cell in front of a memory, unless it holds the blank value. -/
def Memory.cons (j : Nat) (v : Byte) (m : Memory) : Memory :=
  if v = Memory.blank then m else (j, v) :: m

/-- `BUF[j] <- v`, `MemWrite(BUF, j, 1, v)` (R43). -/
def Memory.write : Memory → Nat → Byte → Memory
  | [], j, v => Memory.cons j v []
  | (a, b) :: m, j, v =>
    if a < j then (a, b) :: Memory.write m j v
    else if a = j then Memory.cons j v m
    else Memory.cons j v ((a, b) :: m)

/-- `for j in 0 .. w-1: BUF[j] <- 0x00` (40_configure.md R80). -/
def Memory.clear (m : Memory) (w : Nat) : Memory := m.filter fun c => w ≤ c.1

/-- The cells that hold the bytes `bs` from index `j` up. -/
def Memory.cellsFrom : Nat → List Byte → Memory
  | _, [] => []
  | j, b :: bs => Memory.cons j b (Memory.cellsFrom (j + 1) bs)

/-- `for i in 0 .. w-1: BUF[i] <- S[i]`, where `bs` is `S[0..w-1]` (41_seed.md R86). -/
def Memory.load (m : Memory) (bs : List Byte) : Memory :=
  Memory.cellsFrom 0 bs ++ m.clear bs.length

/-! ### table_rom -/

/-- `TABLE[b]`, `MemRead(ROM, b, 4)` (20_memory.md R41). -/
def tableRead (p : Part) (b : Byte) : Word32 := p.rom.get b.toFin

/-! ### Registers -/

/-- The 2-bit code of STATE (10_state.md R23); no command exposes it. -/
def stateCode : Lifecycle → BitVec 2
  | .unconfigured => 0
  | .unseeded => 1
  | .seeded => 2

/-- WIN, the logical window, oldest byte first (10_state.md R27). -/
def Engine.win (e : Engine) : List Byte :=
  match e.state with
  | .seeded => (List.range e.wlen.toNat).map fun i => e.buf.read ((e.ptr + i) % e.wlen.toNat)
  | .unconfigured => []
  | .unseeded => []

/-- The register writes of a successful CONFIG (40_configure.md R80). -/
def Engine.configured (e : Engine) (wl : Word32) : Engine :=
  { state := .unseeded, wlen := wl, hash := 0, buf := e.buf.clear wl.toNat, ptr := 0 }

/-- The register writes of a successful SEED of the window `win` (41_seed.md R86). -/
def Engine.loaded (e : Engine) (T : Byte → Word32) (win : List Byte) : Engine :=
  { e with state := .seeded, hash := hashOf T e.wlen.toNat win, buf := e.buf.load win, ptr := 0 }

/-- The register writes of a rotation (42_rotate.md R96): all values are read before any is written. -/
def Engine.rotated (e : Engine) (T : Byte → Word32) (l b : Byte) : Engine :=
  { e with
    hash := rotStep T e.wlen.toNat e.hash l b
    buf := e.buf.write e.ptr b
    ptr := (e.ptr + 1) % e.wlen.toNat }

/-- Replace the registers of the selected instance. -/
def State.setEng (s : State) (e : Engine) : State := { s with cur := { s.cur with eng := e } }

/-! ### Responses and errors -/

/-- `respond(status, data)`: emit the one response of the command, for the host that sent it (30_encoding.md R73,
20_memory.md R51). -/
def State.respond (s : State) (st : Status) (data : Word32) : State :=
  { s with cur := { s.cur with resp := s.cur.resp ++ [{ host := s.cur.owner, word := responseWord st data }] } }

/-- `raise E(info)`: the command ends in error status `E`, no engine state is written, DATA is 0 (60_exceptions.md R111).
There is no handler and no return from it (R110, R121): the next command is accepted as usual. -/
def State.raise (s : State) (st : Status) : State := s.respond st 0

/-- A successful command: the register writes, then the response (R73). -/
def State.complete (s : State) (e : Engine) (data : Word32) : State := (s.setEng e).respond .ok data

/-- Go on only if BUF has an entry `j` (R43; log 3). -/
def withBufIndex (s : State) (j : Nat) (k : Host.Outcome State Fault Refusal) : Host.Outcome State Fault Refusal :=
  if j < s.part.wmax then k else .fault (.bufIndexOutOfRange j)

/-- A command word that decodes to no instruction ends in E_ILLEGAL (60_exceptions.md R116). -/
def illegalCommand (s : State) : Host.Outcome State Fault Refusal := .next (s.raise .eIllegal)

end Sys2Proof.Machine
end

