-- ==== Sys2Proof/Machine/Configure.lean ====
section
/-! DEFINITION. The meaning of CONFIG (40_configure.md R80 to R82). -/

namespace Sys2Proof.Machine

/-- CONFIG, accepted in every STATE (R80, R81). -/
def execConfig (wl : Word32) (s : State) : Host.Outcome State Fault Refusal :=
  .next
    (if wl = 0 ∨ s.part.wmax < wl.toNat then s.raise .eConfig
     else s.complete (s.cur.eng.configured wl) 0)

end Sys2Proof.Machine
end

