-- ==== Sys2Proof/Machine/Rotate.lean ====
section
/-! DEFINITION. The meanings of ROTATE and ROTATE_CHECKED (42_rotate.md R96 to R98). -/

namespace Sys2Proof.Machine

/-- The part the two commands share: slide the window by one byte and answer the new hash (R96). -/
def slideWindow (l e : Byte) (s : State) : State :=
  let r := s.cur.eng.rotated (tableRead s.part) l e
  s.complete r r.hash

/-- ROTATE. The leaving byte is not compared with the window (R96, R98). -/
def execRotate (l e : Byte) (s : State) : Host.Outcome State Fault Refusal :=
  match s.cur.eng.state with
  | .unconfigured => .next (s.raise .eNoConfig)
  | .unseeded => .next (s.raise .eUninit)
  | .seeded => withBufIndex s s.cur.eng.ptr (.next (slideWindow l e s))

/-- ROTATE_CHECKED: a leaving byte other than `BUF[PTR]` ends in E_MISMATCH (R97). -/
def execRotateChecked (l e : Byte) (s : State) : Host.Outcome State Fault Refusal :=
  match s.cur.eng.state with
  | .unconfigured => .next (s.raise .eNoConfig)
  | .unseeded => .next (s.raise .eUninit)
  | .seeded =>
    withBufIndex s s.cur.eng.ptr
      (.next (if l = s.cur.eng.buf.read s.cur.eng.ptr then slideWindow l e s else s.raise .eMismatch))

end Sys2Proof.Machine
end

