-- ==== Sys2Proof/Syntax.lean ====
section
/-! DEFINITION. The commands of the engine as syntax: one constructor per row of spec/opcode_table.json. -/

namespace Sys2Proof

/-- A command (30_encoding.md R62 to R65). The operand fields are those of the command word, unsigned (R68). -/
inductive Instr where
  /-- CONFIG (format W, R62): `wl` is the requested window length. -/
  | config (wl : Word32)
  /-- SEED (format S, R63): `n` is the number of input bytes; `payload` holds the words that follow the header, in order,
  padding bytes included (log 16). -/
  | seed (n : Word32) (payload : List Word64)
  /-- ROTATE (format B, R64). -/
  | rotate (leaving entering : Byte)
  /-- ROTATE_CHECKED (format B, R64). -/
  | rotateChecked (leaving entering : Byte)
  deriving DecidableEq, Repr

end Sys2Proof
end

