-- ==== Sys2Proof/Machine/Operands.lean ====
section
/-! DEFINITION. Operand assembly: the bytes that travel in payload words (30_encoding.md R63, R66) and `ceil_div`
(00_scope.md R13). -/

namespace Sys2Proof.Machine

/-- The least natural `q` with `q * m >= n`, for `m > 0` (R13). -/
def ceilDiv (n m : Nat) : Nat := (n + (m - 1)) / m

/-- P: how many payload words carry `n` bytes (R63). -/
def payloadWordCount (n : Nat) : Nat := ceilDiv n 8

/-- Bits `[8j+7 : 8j]` of a payload word (R66). -/
def wordByte (p : Word64) (j : Nat) : Byte := p.extractLsb' (8 * j) 8

/-- The eight bytes of a payload word, byte 0 first (R66: little-endian within the word). -/
def wordBytes (p : Word64) : List Byte := (List.range 8).map (wordByte p)

/-- All bytes of the payload words, in order: byte `8k + j` is byte `j` of word `k` (R66). -/
def payloadBytes (payload : List Word64) : List Byte := payload.flatMap wordBytes

/-- The input bytes `S[0..N-1]` of a SEED; the padding bytes of the last word are dropped (R66). -/
def seedBytes (n : Word32) (payload : List Word64) : List Byte :=
  (payloadBytes payload).take n.toNat

/-- The payload word that carries the first eight of `bs`, unused bytes 0 (R66, R75). -/
def packWord (bs : List Byte) : Word64 :=
  bs.getD 7 0 ++ bs.getD 6 0 ++ bs.getD 5 0 ++ bs.getD 4 0 ++
    bs.getD 3 0 ++ bs.getD 2 0 ++ bs.getD 1 0 ++ bs.getD 0 0

/-- The payload words that carry `bs`, unused bytes of the last word 0 (R66, R75). -/
def packWords (bs : List Byte) : List Word64 :=
  (List.range (payloadWordCount bs.length)).map fun k => packWord (bs.drop (8 * k))

/-- The SEED of the bytes `bs`, as an assembler makes it (R75): N is their number. -/
def seedOf (bs : List Byte) : Instr := .seed (BitVec.ofNat 32 bs.length) (packWords bs)

end Sys2Proof.Machine
end

