-- ==== Sys2Proof/Machine/Seed.lean ====
section
/-! DEFINITION. The meaning of SEED (41_seed.md R86 to R88). -/

namespace Sys2Proof.Machine

/-- Load the window `win` and answer its hash (R86). The highest BUF entry written is `WLEN - 1`. -/
def seedWindow (win : List Byte) (s : State) : Host.Outcome State Fault Refusal :=
  let e := s.cur.eng.loaded (tableRead s.part) win
  withBufIndex s (s.cur.eng.wlen.toNat - 1) (.next (s.complete e e.hash))

/-- SEED: the first WLEN input bytes become the window (R86, R87). -/
def execSeed (n : Word32) (payload : List Word64) (s : State) : Host.Outcome State Fault Refusal :=
  if s.cur.eng.state = .unconfigured then .next (s.raise .eNoConfig)
  else if n.toNat < s.cur.eng.wlen.toNat then .next (s.raise .eShort)
  else if (seedBytes n payload).length < s.cur.eng.wlen.toNat then .fault .payloadMissing
  else seedWindow ((seedBytes n payload).take s.cur.eng.wlen.toNat) s

end Sys2Proof.Machine
end

