-- ==== Sys2Proof/Machine/Dispatch.lean ====
section
/-! DEFINITION. `exec`: one arm per constructor of `Instr`. -/

namespace Sys2Proof.Machine

def exec (i : Instr) (s : State) : Host.Outcome State Fault Refusal :=
  match i with
  | .config wl => Sys2Proof.Machine.execConfig wl s
  | .seed n payload => Sys2Proof.Machine.execSeed n payload s
  | .rotate l e => Sys2Proof.Machine.execRotate l e s
  | .rotateChecked l e => Sys2Proof.Machine.execRotateChecked l e s

end Sys2Proof.Machine
end

