-- ==== Sys2Proof/WellFormed.lean ====
section
/-! DEFINITION. Which terms of `Instr` stand for a command as it travels on the port. -/

namespace Sys2Proof

/-- A SEED carries exactly `ceil_div(N, 8)` payload words (30_encoding.md R63, R67). Every value of every other operand
field is a command: what it does is decided when it executes (R62). -/
def Instr.wf : Instr → Bool
  | .config _ => true
  | .seed n payload => payload.length == Machine.payloadWordCount n.toNat
  | .rotate _ _ => true
  | .rotateChecked _ _ => true

end Sys2Proof
end

