-- ==== Sys2Proof/Decode.lean ====
section
/-! DEFINITION. The decoder and the encoder of command words (30_encoding.md R61 to R71), and the response decoder
(R73, R74 are in Machine/Flags.lean). -/

namespace Sys2Proof

open Sys2Proof.Machine

/-- Why a word sequence is no command. -/
inductive Reject where
  /-- No word to decode. -/
  | noWord
  /-- A SEED header whose payload words are not all there (R67). -/
  | payloadIncomplete
  /-- Opcode 0x0 or 0x5 to 0xF (R69). -/
  | reservedOpcode
  /-- A defined opcode whose RSV or RSVB field is not zero (R70). -/
  | reservedField
  deriving DecidableEq, Repr

/-- OP, `c[63:60]` (R61). -/
def opField (c : Word64) : BitVec 4 := c.extractLsb' 60 4

/-- RSV, `c[59:32]` (R61). -/
def rsvField (c : Word64) : BitVec 28 := c.extractLsb' 32 28

/-- ARG, `c[31:0]` (R61): WL of format W (R62), N of format S (R63). -/
def argField (c : Word64) : Word32 := c.extractLsb' 0 32

/-- RSVB, `c[31:16]` of format B (R64). -/
def rsvbField (c : Word64) : BitVec 16 := c.extractLsb' 16 16

/-- E, `c[15:8]` of format B (R64). -/
def enteringField (c : Word64) : Byte := c.extractLsb' 8 8

/-- L, `c[7:0]` of format B (R64). -/
def leavingField (c : Word64) : Byte := c.extractLsb' 0 8

/-- How many payload words follow the command word `c`, legal or not (R67). -/
def payloadWordsAfter (c : Word64) : Nat :=
  if opField c = 2#4 then payloadWordCount (argField c).toNat else 0

/-- The length of the command that starts with `c`, in 64-bit words (R67). -/
def commandLength (c : Word64) : Nat := 1 + payloadWordsAfter c

/-- Decode a framed command: its command word `c` and the payload words that came with it (R65, R69, R70). -/
def decodeFrame (c : Word64) (payload : List Word64) : Except Reject Instr :=
  if opField c = 1#4 then
    if rsvField c = 0 then .ok (.config (argField c)) else .error .reservedField
  else if opField c = 2#4 then
    if rsvField c = 0 then .ok (.seed (argField c) payload) else .error .reservedField
  else if opField c = 3#4 then
    if rsvField c = 0 ∧ rsvbField c = 0 then .ok (.rotate (leavingField c) (enteringField c))
    else .error .reservedField
  else if opField c = 4#4 then
    if rsvField c = 0 ∧ rsvbField c = 0 then .ok (.rotateChecked (leavingField c) (enteringField c))
    else .error .reservedField
  else .error .reservedOpcode

/-- Decode the first command of a sequence of words and return the words after it (R67). -/
def decode : List Word64 → Except Reject (Instr × List Word64)
  | [] => .error .noWord
  | c :: rest =>
    match decodeFrame c (rest.take (payloadWordsAfter c)) with
    | .error r => .error r
    | .ok i =>
      if rest.length < payloadWordsAfter c then .error .payloadIncomplete
      else .ok (i, rest.drop (payloadWordsAfter c))

/-- A command word of formats W and S (R62, R63). -/
def wordOfArg (op : BitVec 4) (arg : Word32) : Word64 := op ++ 0#28 ++ arg

/-- A command word of format B (R64). -/
def wordOfBytes (op : BitVec 4) (leaving entering : Byte) : Word64 :=
  op ++ 0#28 ++ 0#16 ++ entering ++ leaving

/-- The words of a command, as they travel on the port (R62 to R65). -/
def encode : Instr → List Word64
  | .config wl => [wordOfArg 1#4 wl]
  | .seed n payload => wordOfArg 2#4 n :: payload
  | .rotate l e => [wordOfBytes 3#4 l e]
  | .rotateChecked l e => [wordOfBytes 4#4 l e]

/-- Word `j` of an instruction whose bits are `w`, bit 0 the least significant bit of word 0, and whose bits from
`nbits` up are 0. -/
def tableWord (nbits w j : Nat) : Word64 := BitVec.ofNat 64 ((w % 2 ^ nbits) >>> (64 * j))

/-- The payload words of that instruction. -/
def tablePayload (nbits w : Nat) : List Word64 :=
  (List.range (payloadWordsAfter (tableWord nbits w 0))).map fun k => tableWord nbits w (k + 1)

/-- The instruction the decoder reads from the word `w` of spec/opcode_table.json. -/
def decodeTableWord (nbits w : Nat) : Option Instr :=
  match decodeFrame (tableWord nbits w 0) (tablePayload nbits w) with
  | .ok i => some i
  | .error _ => none

end Sys2Proof
end

