-- ==== Sys2Proof/Machine/Ports.lean ====
section
/-! DEFINITION. The ports of the instances (30_encoding.md R60, R67; 20_memory.md R51; 70_reset_and_hazards.md R130, R139,
R140): accepting words, framing them into commands, giving responses out, and `rst`. -/

namespace Sys2Proof.Machine

/-- All instances, in the order of their numbers (60_exceptions.md R125). -/
def State.insts (s : State) : List Inst := s.below ++ s.cur :: s.above

/-- The number of the selected instance. -/
def State.sel (s : State) : Nat := s.below.length

/-- Select instance `k`, if there is one (log 8, log 14). -/
def State.select (s : State) (k : Nat) : Option State :=
  match s.insts[k]? with
  | none => none
  | some i => some { s with below := s.insts.take k, cur := i, above := s.insts.drop (k + 1) }

/-! ### Accepting words -/

/-- Does the port accept a word that host `h` offers? Not while `rst` is asserted (R130). The header of a new command
needs room for its response (R139, log 9). A payload word must come from the host whose command this is (R51). -/
def Inst.ready (i : Inst) (p : Part) (h : Nat) : Bool :=
  match i.rx with
  | none => i.resp.length < p.respDepth
  | some f => 0 < f.missing && h = i.owner

/-- Accept a word from host `h`: the first word of a command gives its length (R67), later ones are its payload. -/
def Inst.accept (i : Inst) (h : Nat) (w : Word64) : Inst :=
  match i.rx with
  | none => { i with owner := h, rx := some { header := w, payload := [], missing := payloadWordsAfter w } }
  | some f => { i with rx := some { f with payload := f.payload ++ [w], missing := f.missing - 1 } }

/-- Host `h` offers the word `w`: it moves only if the port accepts it (R60). -/
def State.offer (s : State) (h : Nat) (w : Word64) : State :=
  if s.rst = false ∧ s.cur.ready s.part h then { s with cur := s.cur.accept h w } else s

/-! ### Giving responses out -/

/-- Host `h` takes the oldest response, if it is its own (R50, R51). -/
def Inst.take (i : Inst) (h : Nat) : Inst :=
  match i.resp with
  | [] => i
  | r :: rs => if r.host = h then { i with resp := rs, taken := i.taken ++ [r] } else i

/-! ### Reset -/

/-- `rst` is asserted (log 12): every instance is reset at once, a partly accepted command is abandoned and responses not taken are
discarded; `table_rom` is not affected (R130 to R132). -/
def State.assertReset (s : State) : State :=
  { s with
    below := s.below.map fun _ => Inst.reset
    cur := Inst.reset
    above := s.above.map fun _ => Inst.reset
    rst := true }

/-- `rst` is released: words are accepted again (R130). -/
def State.releaseReset (s : State) : State := { s with rst := false }

/-! ### One host event -/

/-- What a host event does (R140). An event that names an instance the hardware does not have moves nothing (log 14). -/
def State.apply (s : State) : HostEvent → State
  | .send h k w =>
    match s.select k with
    | none => s
    | some t => t.offer h w
  | .take h k =>
    match s.select k with
    | none => s
    | some t => { t with cur := t.cur.take h }
  | .rst true => s.assertReset
  | .rst false => s.releaseReset

/-- The next host event takes place; with none left the hardware is idle and holds its state (60_exceptions.md R127). -/
def State.hostStep (s : State) : State :=
  match s.inputs with
  | [] => s
  | ev :: rest => ({ s with inputs := rest } : State).apply ev

/-! ### The next command -/

/-- The command of the selected instance whose words have all been accepted, decoded, and the state with its words
consumed: the payload too, whatever the command ends in (R67). -/
def State.fetch (s : State) : Option (Except Reject Instr × State) :=
  match s.rst, s.cur.rx with
  | false, some f =>
    if f.missing = 0 then some (decodeFrame f.header f.payload, { s with cur := { s.cur with rx := none } }) else none
  | _, _ => none

/-- `s` with the framed command `c`, `payload` accepted by the selected port and `rst` released. -/
def State.withFrame (s : State) (c : Word64) (payload : List Word64) : State :=
  { s with rst := false, cur := { s.cur with rx := some { header := c, payload := payload, missing := 0 } } }

end Sys2Proof.Machine
end

