-- ==== Sys2Proof/Machine/Step.lean ====
section
/-! DEFINITION. One step of the hardware: a command whose words have all been accepted executes as one indivisible step
(00_scope.md R9, log 17); where none waits, the next host event takes place. -/

namespace Sys2Proof.Machine

def step (s : State) : Host.Outcome State Fault Refusal :=
  match s.fetch with
  | some (.ok i, t) => exec i t
  | some (.error _, t) => illegalCommand t
  | none => .next s.hostStep

/-- `s` with the instruction whose bits are `w` (as spec/opcode_table.json numbers them, bits from `nbits` up 0) accepted
by the selected port, so that the next step runs it (log 13). -/
def State.withFetchWord (s : State) (nbits w : Nat) : State :=
  s.withFrame (tableWord nbits w 0) (tablePayload nbits w)

end Sys2Proof.Machine
end

