-- ==== Sys2Proof/Machine/Assembler.lean ====
section
/-! DEFINITION. The assembly syntax of the commands (30_encoding.md R75): a line of text, the command it names, and the
words it stands for (log 15). -/

namespace Sys2Proof.Machine

/-- What one line of assembly says (R75). -/
inductive AsmLine where
  | config (w : Nat)
  | seed (bytes : List Nat)
  | rotate (leaving entering : Nat)
  | rotateChecked (leaving entering : Nat)
  | word64 (value : Nat)
  deriving DecidableEq, Repr

/-- The words of a line; an operand outside its range is refused (R75). -/
def assemble : AsmLine → Option (List Word64)
  | .config w => if w < 2 ^ 32 then some (encode (.config (BitVec.ofNat 32 w))) else none
  | .seed bytes =>
    if bytes.length < 2 ^ 32 ∧ ∀ b ∈ bytes, b < 2 ^ 8 then some (encode (seedOf (bytes.map (BitVec.ofNat 8)))) else none
  | .rotate l e =>
    if l < 2 ^ 8 ∧ e < 2 ^ 8 then some (encode (.rotate (BitVec.ofNat 8 l) (BitVec.ofNat 8 e))) else none
  | .rotateChecked l e =>
    if l < 2 ^ 8 ∧ e < 2 ^ 8 then some (encode (.rotateChecked (BitVec.ofNat 8 l) (BitVec.ofNat 8 e))) else none
  | .word64 v => if v < 2 ^ 64 then some [BitVec.ofNat 64 v] else none

/-- Space and tab separate. -/
def isSpace (c : Char) : Bool := c = ' ' || c = '\t'

/-- `cs` without the separators at its ends. -/
def trim (cs : List Char) : List Char := ((cs.dropWhile isSpace).reverse.dropWhile isSpace).reverse

/-- The value of a decimal or hexadecimal digit. -/
def digitValue (c : Char) : Option Nat :=
  if 48 ≤ c.toNat ∧ c.toNat ≤ 57 then some (c.toNat - 48)
  else if 97 ≤ c.toNat ∧ c.toNat ≤ 102 then some (c.toNat - 87)
  else if 65 ≤ c.toNat ∧ c.toNat ≤ 70 then some (c.toNat - 55)
  else none

/-- Digits in a base, after the digits already read with value `acc`. -/
def digitsValue (base : Nat) : Nat → List Char → Option Nat
  | acc, [] => some acc
  | acc, c :: cs =>
    match digitValue c with
    | none => none
    | some d => if d < base then digitsValue base (base * acc + d) cs else none

/-- A number, decimal or with the prefix `0x` hexadecimal (R75). -/
def parseNumber : List Char → Option Nat
  | [] => none
  | '0' :: 'x' :: cs => if cs = [] then none else digitsValue 16 0 cs
  | cs => digitsValue 10 0 cs

/-- The pieces of `cs` between commas. -/
def splitCommas : List Char → List (List Char)
  | [] => [[]]
  | c :: cs =>
    if c = ',' then [] :: splitCommas cs
    else
      match splitCommas cs with
      | [] => [[c]]
      | f :: fs => (c :: f) :: fs

/-- Every piece as a number. -/
def parseNumbers : List (List Char) → Option (List Nat)
  | [] => some []
  | f :: fs =>
    match parseNumber (trim f), parseNumbers fs with
    | some n, some ns => some (n :: ns)
    | _, _ => none

/-- The operand list of a line; none at all is the empty list ("SEED", R75). -/
def parseOperands (cs : List Char) : Option (List Nat) :=
  if trim cs = [] then some [] else parseNumbers (splitCommas cs)

/-- A mnemonic with its operands (R75). -/
def parseCommand (mnemonic : List Char) (ops : List Nat) : Option AsmLine :=
  if mnemonic = ['C', 'O', 'N', 'F', 'I', 'G'] then
    match ops with
    | [w] => some (.config w)
    | _ => none
  else if mnemonic = ['S', 'E', 'E', 'D'] then some (.seed ops)
  else if mnemonic = ['R', 'O', 'T', 'A', 'T', 'E'] then
    match ops with
    | [l, e] => some (.rotate l e)
    | _ => none
  else if mnemonic = ['R', 'O', 'T', 'A', 'T', 'E', '_', 'C', 'H', 'E', 'C', 'K', 'E', 'D'] then
    match ops with
    | [l, e] => some (.rotateChecked l e)
    | _ => none
  else if mnemonic = ['.', 'w', 'o', 'r', 'd', '6', '4'] then
    match ops with
    | [v] => some (.word64 v)
    | _ => none
  else none

/-- The words of one line of text: the part before `;` (R75). A line with no command has no words. -/
def assembleLine (line : List Char) : Option (List Word64) :=
  let cs := trim (line.takeWhile fun c => c != ';')
  if cs = [] then some []
  else
    match parseOperands (cs.dropWhile fun c => !isSpace c) with
    | none => none
    | some ops =>
      match parseCommand (cs.takeWhile fun c => !isSpace c) ops with
      | none => none
      | some l => assemble l

end Sys2Proof.Machine
end

