-- ==== Sys2Proof/Safety.lean ====
section
/-! DEFINITION. The terms in which statements about the machine are written: what holds of every state a run reaches,
when a run is safe, what a command leaves alone, and the consistency of HASH with the window (10_state.md R29). -/

namespace Sys2Proof.Machine

/-! ### What holds of every reachable state -/

/-- The registers of an instance of the part `p` (10_state.md R23 to R28, R33). -/
structure Engine.Inv (p : Part) (e : Engine) : Prop where
  /-- BUF is in canonical form. -/
  buf_wf : e.buf.wf
  /-- BUF has entries 0 .. WMAX-1 only (R26). -/
  buf_lt : ∀ c ∈ e.buf, c.1 < p.wmax
  /-- WLEN is a legal window length once configured (R24). -/
  wlen_range : e.state ≠ .unconfigured → 1 ≤ e.wlen.toNat ∧ e.wlen.toNat ≤ p.wmax
  /-- WLEN is 0 in UNCONFIGURED (R24). -/
  wlen_zero : e.state = .unconfigured → e.wlen = 0
  /-- HASH and PTR are 0 until a SEED succeeds (R25, R28). -/
  hash_ptr_zero : e.state ≠ .seeded → e.hash = 0 ∧ e.ptr = 0
  /-- While SEEDED, 0 <= PTR < WLEN (R28). -/
  ptr_lt : e.state = .seeded → e.ptr < e.wlen.toNat

/-- A command being accepted: its payload is as long as its command word says (30_encoding.md R67). -/
def Frame.Inv (f : Frame) : Prop := f.missing + f.payload.length = payloadWordsAfter f.header

/-- An instance with its ports. -/
structure Inst.Inv (p : Part) (i : Inst) : Prop where
  eng : i.eng.Inv p
  frame : ∀ f, i.rx = some f → f.Inv
  /-- At most RESP_DEPTH responses wait (70_reset_and_hazards.md R139). -/
  resp_le : i.resp.length ≤ p.respDepth
  /-- A command is accepted only when there is room for its response (R139, log 9). -/
  resp_lt : i.rx ≠ none → i.resp.length < p.respDepth
  /-- Every response is a response word: codes 7 to 15 are never produced (30_encoding.md R74). -/
  resp_legal : ∀ r ∈ i.taken ++ i.resp, (decodeResponse r.word).isSome

/-- The hardware. -/
structure State.Inv (s : State) : Prop where
  part : s.part.Legal
  insts : ∀ i ∈ s.insts, i.Inv s.part
  /-- A command whose words have all been accepted waits only on the selected instance (log 7). -/
  waiting : ∀ i ∈ s.below ++ s.above, ∀ f, i.rx = some f → 0 < f.missing
  /-- While `rst` is asserted every instance is in its reset state (70_reset_and_hazards.md R130). -/
  inReset : s.rst = true → ∀ i ∈ s.insts, i = Inst.reset

/-- A safe run: no step from `s` on ends in a fault or a refusal. -/
def SafeRun (s : State) : Prop := ∀ n, ∃ t, core.run n s = .next t

/-! ### What a command leaves alone, and what it answers -/

/-- `t` differs from `s` at most in the registers, the command being accepted and the waiting responses of the selected
instance. -/
def State.SameElsewhere (s t : State) : Prop :=
  t.part = s.part ∧ t.below = s.below ∧ t.above = s.above ∧ t.rst = s.rst ∧ t.inputs = s.inputs ∧
    t.cur.owner = s.cur.owner ∧ t.cur.taken = s.cur.taken

/-- From `s` to `t` the selected instance emits exactly one response, for the host whose command it is. -/
def State.Answers (s t : State) (st : Status) (data : Word32) : Prop :=
  t.cur.resp = s.cur.resp ++ [{ host := s.cur.owner, word := responseWord st data }]

/-- `i` ends in the error `st` on `s`: it completes, writes no register and no BUF entry, and answers `st` with DATA 0
(60_exceptions.md R111). -/
def EndsIn (i : Instr) (s : State) (st : Status) : Prop :=
  ∃ t, exec i s = .next t ∧ t.cur.eng = s.cur.eng ∧ t.cur.rx = s.cur.rx ∧ s.SameElsewhere t ∧ s.Answers t st 0

/-- All words of the command `c`, `payload` have been accepted by the selected port. -/
def State.Holds (s : State) (c : Word64) (payload : List Word64) : Prop :=
  s.rst = false ∧ s.cur.rx = some { header := c, payload := payload, missing := 0 } ∧
    payload.length = payloadWordsAfter c

/-- `s` with the accepted command taken from the port. -/
def State.consumed (s : State) : State := { s with cur := { s.cur with rx := none } }

/-- The accepted command ends in E_ILLEGAL: its words are taken, no register and no BUF entry is written, and the one
response carries E_ILLEGAL with DATA 0 (30_encoding.md R69, R70, 60_exceptions.md R111, R116). -/
def State.EndsIllegal (s : State) : Prop :=
  ∃ t, step s = .next t ∧ t.cur.eng = s.cur.eng ∧ t.cur.rx = none ∧ s.SameElsewhere t ∧ s.Answers t .eIllegal 0

/-! ### HASH and the window -/

/-- HASH is the hash of the window (R29). -/
def Engine.Consistent (p : Part) (e : Engine) : Prop :=
  e.state = .seeded → e.hash = hashOf (tableRead p) e.wlen.toNat e.win

/-- So it is on every instance. -/
def State.Consistent (s : State) : Prop := ∀ i ∈ s.insts, i.eng.Consistent s.part

/-- The next step is no ROTATE of a seeded instance with a leaving byte other than WIN[0] (the caller contract,
42_rotate.md R98, 70_reset_and_hazards.md R135). -/
def State.KeepsContract (s : State) : Prop :=
  ∀ l e t, s.fetch = some (.ok (.rotate l e), t) → s.cur.eng.state = .seeded → s.cur.eng.win.head? = some l

/-- No observation tells the registers `e` and `e'` apart: STATE, WLEN, HASH and WIN agree; PTR and the BUF entries
outside the window are hidden (10_state.md R27, R28, R33). -/
def Engine.SameView (e e' : Engine) : Prop :=
  e.state = e'.state ∧ e.wlen = e'.wlen ∧ e.hash = e'.hash ∧ e.win = e'.win

/-! ### Sequences of commands -/

/-- The commands `is`, one after the other, on the selected instance. -/
def execAll : List Instr → State → Host.Outcome State Fault Refusal
  | [], s => .next s
  | i :: is, s =>
    match exec i s with
    | .next t => execAll is t
    | .fault r => .fault r
    | .refused r => .refused r

/-- One ROTATE per byte of `es`, each given the then-current WIN[0] as its leaving byte. -/
def rollOver : List Byte → State → Host.Outcome State Fault Refusal
  | [], s => .next s
  | e :: es, s =>
    match exec (.rotate (s.cur.eng.win.headD 0) e) s with
    | .next t => rollOver es t
    | .fault r => .fault r
    | .refused r => .refused r

/-- The command `i` on instance `k`. -/
def execOn (k : Nat) (i : Instr) (s : State) : Host.Outcome State Fault Refusal :=
  match s.select k with
  | none => .next s
  | some t => exec i t

end Sys2Proof.Machine
end

