-- ==== Sys2Proof/Certificates/Slice0/Obligations.lean ====
section
/-! DEFINITION. The statements about this machine. Each docstring says which rule of spec/ it formalises. -/

open Sys2Proof Sys2Proof.Machine

/-! ### Encoding and framing -/

/-- Words written out from 30_encoding.md R62 to R65 and 95_test_vectors.md 2.6 decode to what they stand for. -/
def Obligations.SampleWordsDecode : Prop :=
  decode [0x1000000000000004] = .ok (.config 4, []) ∧
  decode [0x2000000000000009, 0x0807060504030201, 0x0000000000000009, 0x3000000000000308] =
    .ok (.seed 9 [0x0807060504030201, 0x0000000000000009], [0x3000000000000308]) ∧
  decode [0x3000000000000308] = .ok (.rotate 8 3, []) ∧
  decode [0x4000000000000407] = .ok (.rotateChecked 7 4, []) ∧
  decode [0x0000000000000000] = .error .reservedOpcode ∧
  decode [0x4000000000FF0000] = .error .reservedField

/-- Decoding the words of a well-formed command, whatever follows them, gives the command back and leaves what
follows. -/
def Obligations.DecodeInvertsEncode : Prop :=
  ∀ (i : Instr) (rest : List Word64), i.wf = true → decode (encode i ++ rest) = .ok (i, rest)

/-- The words that decode to a command are exactly its encoding: each word sequence has one meaning. -/
def Obligations.EncodeInvertsDecode : Prop :=
  ∀ (ws rest : List Word64) (i : Instr), decode ws = .ok (i, rest) → i.wf = true ∧ ws = encode i ++ rest

/-- The match and mask table of R65: a command word decodes to a row's mnemonic exactly when it matches the row. -/
def Obligations.OpcodeRowsSelectMnemonic : Prop :=
  ∀ (c : Word64) (p : List Word64),
    ((c &&& 0xFFFFFFFF00000000 = 0x1000000000000000) ↔ ∃ wl, decodeFrame c p = .ok (.config wl)) ∧
    ((c &&& 0xFFFFFFFF00000000 = 0x2000000000000000) ↔ ∃ n q, decodeFrame c p = .ok (.seed n q)) ∧
    ((c &&& 0xFFFFFFFFFFFF0000 = 0x3000000000000000) ↔ ∃ l e, decodeFrame c p = .ok (.rotate l e)) ∧
    ((c &&& 0xFFFFFFFFFFFF0000 = 0x4000000000000000) ↔ ∃ l e, decodeFrame c p = .ok (.rotateChecked l e))

/-- R116, with R69 and R70: a command word is illegal exactly when its opcode is reserved or a reserved field is not
zero (the bits read as numbers), and then, in any STATE, its command ends in E_ILLEGAL with no register or BUF entry
written; a legal one never answers E_ILLEGAL. A reserved opcode's command is one word long. -/
def Obligations.IllegalWordsEndInEIllegal : Prop :=
  ∀ (s : State) (c : Word64) (p : List Word64), s.Holds c p →
    let op := c.toNat / 2 ^ 60
    let legal :=
      ((op = 1 ∨ op = 2) ∧ c.toNat / 2 ^ 32 % 2 ^ 28 = 0) ∨ ((op = 3 ∨ op = 4) ∧ c.toNat / 2 ^ 16 % 2 ^ 44 = 0)
    (¬ legal → s.EndsIllegal) ∧
    (legal → ∀ t, step s = .next t → ∀ d, ¬ s.Answers t .eIllegal d) ∧
    ((op = 0 ∨ 5 ≤ op) → ¬ legal ∧ commandLength c = 1) ∧
    statusCode .eIllegal = 5

/-- `length(c)` of R67 with `ceil_div` as R13 defines it: the least `q` with `q * 8 >= N`. -/
def Obligations.CommandLengthFromFirstWord : Prop :=
  ∀ c : Word64,
    (c.toNat / 2 ^ 60 ≠ 2 → commandLength c = 1) ∧
    (c.toNat / 2 ^ 60 = 2 →
      ∃ q, commandLength c = 1 + q ∧ c.toNat % 2 ^ 32 ≤ q * 8 ∧ ∀ r, c.toNat % 2 ^ 32 ≤ r * 8 → q ≤ r)

/-- R66: byte `8k + j` of the input is bits `[8j+7 : 8j]` of payload word `k`, a SEED has the first N of them, and the
padding bytes of the payload affect no state and no response. -/
def Obligations.PayloadIsLittleEndian : Prop :=
  (∀ (payload : List Word64) (k j : Nat) (p : Word64), payload[k]? = some p → j < 8 →
    (payloadBytes payload)[8 * k + j]? = some (BitVec.ofNat 8 (p.toNat / 2 ^ (8 * j)))) ∧
  (∀ (n : Word32) (payload : List Word64) (i : Nat), i < n.toNat →
    (seedBytes n payload)[i]? = (payloadBytes payload)[i]?) ∧
  (∀ (n : Word32) (p q : List Word64) (s : State), (Instr.seed n p).wf = true → (Instr.seed n q).wf = true →
    (∀ i, i < n.toNat → (payloadBytes p)[i]? = (payloadBytes q)[i]?) → exec (.seed n p) s = exec (.seed n q) s)

/-- R75: each of the five line forms is assembled exactly when its operands are in range, and then to the words of R62
to R66, written out as numbers; an assembled SEED carries exactly the bytes listed, with every padding byte 0. The range
of .word64 and the limit on the count of bytes are the model's (log 15). -/
def Obligations.AssemblerAcceptsExactlyInRange : Prop :=
  (∀ w, assemble (.config w) = if w < 2 ^ 32 then some (encode (.config (BitVec.ofNat 32 w))) else none) ∧
  (∀ l e, assemble (.rotate l e) =
    if l < 2 ^ 8 ∧ e < 2 ^ 8 then some (encode (.rotate (BitVec.ofNat 8 l) (BitVec.ofNat 8 e))) else none) ∧
  (∀ l e, assemble (.rotateChecked l e) =
    if l < 2 ^ 8 ∧ e < 2 ^ 8 then some (encode (.rotateChecked (BitVec.ofNat 8 l) (BitVec.ofNat 8 e))) else none) ∧
  (∀ bytes : List Nat, assemble (.seed bytes) =
    if bytes.length < 2 ^ 32 ∧ ∀ b ∈ bytes, b < 2 ^ 8 then some (encode (seedOf (bytes.map (BitVec.ofNat 8))))
    else none) ∧
  (∀ v, assemble (.word64 v) = if v < 2 ^ 64 then some [BitVec.ofNat 64 v] else none) ∧
  (∀ w, w < 2 ^ 32 → encode (.config (BitVec.ofNat 32 w)) = [BitVec.ofNat 64 (0x1000000000000000 + w)]) ∧
  (∀ l e, l < 2 ^ 8 → e < 2 ^ 8 →
    encode (.rotate (BitVec.ofNat 8 l) (BitVec.ofNat 8 e)) =
      [BitVec.ofNat 64 (0x3000000000000000 + e * 2 ^ 8 + l)] ∧
    encode (.rotateChecked (BitVec.ofNat 8 l) (BitVec.ofNat 8 e)) =
      [BitVec.ofNat 64 (0x4000000000000000 + e * 2 ^ 8 + l)]) ∧
  (∀ bs : List Byte, bs.length < 2 ^ 32 → ∃ p, seedOf bs = .seed (BitVec.ofNat 32 bs.length) p ∧
    (seedOf bs).wf = true ∧ encode (seedOf bs) = BitVec.ofNat 64 (0x2000000000000000 + bs.length) :: p ∧
    seedBytes (BitVec.ofNat 32 bs.length) p = bs ∧
    ∀ j, bs.length ≤ j → j < (payloadBytes p).length → (payloadBytes p)[j]? = some 0)

/-- R73 and R74: the layout of a response word, the status codes, and that the response decoder accepts exactly the
words so laid out. -/
def Obligations.ResponseWordLayout : Prop :=
  (∀ st data, (responseWord st data).toNat = (statusCode st).toNat * 2 ^ 32 + data.toNat) ∧
  ([Status.ok, .eConfig, .eShort, .eUninit, .eMismatch, .eIllegal, .eNoConfig].map fun st => (statusCode st).toNat) =
    [0, 1, 2, 3, 4, 5, 6] ∧
  (∀ r st data, decodeResponse r = some (st, data) ↔ r = responseWord st data)

/-! ### The hash -/

/-- R12: the formula, where each bit goes, and the three consequences the rule draws. That left is toward bit 31 is the
spec's own, from general knowledge (93 G1, log 5). -/
def Obligations.RotationMovesEachBitLeft : Prop :=
  ∀ (x y : Word32) (k : Nat),
    (rotl32 x k).toNat =
      (if k % 32 = 0 then x.toNat else ((x.toNat <<< (k % 32)) ||| (x.toNat >>> (32 - k % 32))) % 2 ^ 32) ∧
    (∀ i, i < 32 → (rotl32 x k).getLsbD ((i + k % 32) % 32) = x.getLsbD i) ∧
    rotl32 x 0 = x ∧ rotl32 x 32 = x ∧
    (∀ a b, rotl32 (rotl32 x a) b = rotl32 x (a + b)) ∧
    rotl32 (x ^^^ y) k = rotl32 x k ^^^ rotl32 y k

/-- R85: the formula, term by term; the newest byte has rotation 0, and equal bytes 32, 64, ... positions apart
cancel: what byte they are does not matter. -/
def Obligations.HashIsXorOfRotatedTerms : Prop :=
  ∀ (T : Byte → Word32) (w : Nat) (win : List Byte), 1 ≤ w → win.length = w →
    hashOf T w win =
      ((List.range w).map fun i => rotl32 (T (win.getD i 0)) ((w - 1 - i) % 32)).foldl (· ^^^ ·) 0 ∧
    hashOf T w win = hashOf (fun b => rotl32 (T b) 1) (w - 1) win.dropLast ^^^ T (win.getD (w - 1) 0) ∧
    ∀ i m b, 1 ≤ m → i + 32 * m < w → win.getD i 0 = win.getD (i + 32 * m) 0 →
      hashOf T w win = hashOf T w ((win.set i b).set (i + 32 * m) b)

/-- R89 (the spec marks it derived): the serial recurrence gives the same hash. -/
def Obligations.SerialEvaluationGivesHash : Prop :=
  ∀ (T : Byte → Word32) (S : List Byte),
    S.foldl (fun h b => rotl32 h 1 ^^^ T b) 0 = hashOf T S.length S

/-- R100 (the spec marks it derived): one rotate-update with the right leaving byte takes the hash of a window to the
hash of the next. -/
def Obligations.RotStepCorrectForOldestByte : Prop :=
  ∀ (T : Byte → Word32) (w : Nat) (o e : Byte) (rest : List Byte), (o :: rest).length = w →
    rotStep T w (hashOf T w (o :: rest)) o e = hashOf T w (rest ++ [e])

/-! ### The commands -/

/-- R80 (with R81 and R112): what runs when a CONFIG word has been accepted, and CONFIG in every STATE, BUF entry by
entry. -/
def Obligations.ConfigSetsWindowLength : Prop :=
  (∀ (c : Word64) (p : List Word64) (s : State), s.Holds c p → c.toNat / 2 ^ 60 = 1 →
    (c.toNat / 2 ^ 32 % 2 ^ 28 ≠ 0 → s.EndsIllegal) ∧
    (c.toNat / 2 ^ 32 % 2 ^ 28 = 0 → step s = exec (.config (BitVec.ofNat 32 c.toNat)) s.consumed)) ∧
  ∀ (wl : Word32) (s : State),
    ((wl.toNat = 0 ∨ s.part.wmax < wl.toNat) → EndsIn (.config wl) s .eConfig) ∧
    (1 ≤ wl.toNat → wl.toNat ≤ s.part.wmax →
      ∃ t, exec (.config wl) s = .next t ∧
        t.cur.eng.state = .unseeded ∧ t.cur.eng.wlen = wl ∧ t.cur.eng.hash = 0 ∧ t.cur.eng.ptr = 0 ∧
        (∀ j, t.cur.eng.buf.read j = if j < wl.toNat then 0 else s.cur.eng.buf.read j) ∧
        t.cur.eng.win = [] ∧
        t.cur.rx = s.cur.rx ∧ s.SameElsewhere t ∧ s.Answers t .ok 0)

/-- R86 (with R88): what runs when a SEED has been accepted, and SEED in every STATE. The premise is the registers'
invariant and that the term carries its payload. -/
def Obligations.SeedLoadsWindowAndHash : Prop :=
  (∀ (c : Word64) (p : List Word64) (s : State), s.Holds c p → c.toNat / 2 ^ 60 = 2 →
    (c.toNat / 2 ^ 32 % 2 ^ 28 ≠ 0 → s.EndsIllegal) ∧
    (c.toNat / 2 ^ 32 % 2 ^ 28 = 0 → step s = exec (.seed (BitVec.ofNat 32 c.toNat) p) s.consumed)) ∧
  ∀ (n : Word32) (p : List Word64) (s : State), (Instr.seed n p).wf = true → s.cur.eng.Inv s.part →
    (s.cur.eng.state = .unconfigured → EndsIn (.seed n p) s .eNoConfig) ∧
    (s.cur.eng.state ≠ .unconfigured → n.toNat < s.cur.eng.wlen.toNat → EndsIn (.seed n p) s .eShort) ∧
    (s.cur.eng.state ≠ .unconfigured → s.cur.eng.wlen.toNat ≤ n.toNat →
      ∃ (t : State) (S : List Byte), exec (.seed n p) s = .next t ∧
        S = (payloadBytes p).take s.cur.eng.wlen.toNat ∧ S.length = s.cur.eng.wlen.toNat ∧
        t.cur.eng.hash = hashOf (tableRead s.part) s.cur.eng.wlen.toNat S ∧
        t.cur.eng.state = .seeded ∧ t.cur.eng.wlen = s.cur.eng.wlen ∧ t.cur.eng.ptr = 0 ∧
        (∀ j, t.cur.eng.buf.read j = if j < s.cur.eng.wlen.toNat then S.getD j 0 else s.cur.eng.buf.read j) ∧
        t.cur.eng.win = S ∧
        t.cur.rx = s.cur.rx ∧ s.SameElsewhere t ∧ s.Answers t .ok t.cur.eng.hash)

/-- R96: what runs when a ROTATE word has been accepted, and ROTATE in every STATE; the leaving byte is not looked at.
-/
def Obligations.RotateSlidesWindow : Prop :=
  (∀ (c : Word64) (p : List Word64) (s : State), s.Holds c p → c.toNat / 2 ^ 60 = 3 →
    (c.toNat / 2 ^ 16 % 2 ^ 44 ≠ 0 → s.EndsIllegal) ∧
    (c.toNat / 2 ^ 16 % 2 ^ 44 = 0 →
      step s = exec (.rotate (BitVec.ofNat 8 c.toNat) (BitVec.ofNat 8 (c.toNat / 2 ^ 8))) s.consumed)) ∧
  ∀ (l e : Byte) (s : State), s.cur.eng.Inv s.part →
    (s.cur.eng.state = .unconfigured → EndsIn (.rotate l e) s .eNoConfig) ∧
    (s.cur.eng.state = .unseeded → EndsIn (.rotate l e) s .eUninit) ∧
    (s.cur.eng.state = .seeded →
      ∃ t, exec (.rotate l e) s = .next t ∧
        t.cur.eng.hash = rotl32 s.cur.eng.hash 1 ^^^
          rotl32 (tableRead s.part l) (s.cur.eng.wlen.toNat % 32) ^^^ tableRead s.part e ∧
        t.cur.eng.ptr = (s.cur.eng.ptr + 1) % s.cur.eng.wlen.toNat ∧
        t.cur.eng.state = .seeded ∧ t.cur.eng.wlen = s.cur.eng.wlen ∧
        (∀ j, t.cur.eng.buf.read j = if j = s.cur.eng.ptr then e else s.cur.eng.buf.read j) ∧
        t.cur.eng.win = s.cur.eng.win.tail ++ [e] ∧
        t.cur.rx = s.cur.rx ∧ s.SameElsewhere t ∧ s.Answers t .ok t.cur.eng.hash)

/-- R97: what runs when a ROTATE_CHECKED word has been accepted, and ROTATE_CHECKED in every STATE; with the right
leaving byte it is ROTATE, and it keeps HASH the hash of the window where it was. -/
def Obligations.RotateCheckedVerifiesLeavingByte : Prop :=
  (∀ (c : Word64) (p : List Word64) (s : State), s.Holds c p → c.toNat / 2 ^ 60 = 4 →
    (c.toNat / 2 ^ 16 % 2 ^ 44 ≠ 0 → s.EndsIllegal) ∧
    (c.toNat / 2 ^ 16 % 2 ^ 44 = 0 →
      step s = exec (.rotateChecked (BitVec.ofNat 8 c.toNat) (BitVec.ofNat 8 (c.toNat / 2 ^ 8))) s.consumed)) ∧
  ∀ (l e : Byte) (s : State), s.cur.eng.Inv s.part →
    (s.cur.eng.state = .unconfigured → EndsIn (.rotateChecked l e) s .eNoConfig) ∧
    (s.cur.eng.state = .unseeded → EndsIn (.rotateChecked l e) s .eUninit) ∧
    (s.cur.eng.state = .seeded → s.cur.eng.buf.read s.cur.eng.ptr = s.cur.eng.win.headD 0 ∧
      (l ≠ s.cur.eng.win.headD 0 → EndsIn (.rotateChecked l e) s .eMismatch) ∧
      (l = s.cur.eng.win.headD 0 →
        ∃ t, exec (.rotateChecked l e) s = .next t ∧
          t.cur.eng.hash = rotl32 s.cur.eng.hash 1 ^^^
            rotl32 (tableRead s.part l) (s.cur.eng.wlen.toNat % 32) ^^^ tableRead s.part e ∧
          t.cur.eng.ptr = (s.cur.eng.ptr + 1) % s.cur.eng.wlen.toNat ∧
          t.cur.eng.state = .seeded ∧ t.cur.eng.wlen = s.cur.eng.wlen ∧
          (∀ j, t.cur.eng.buf.read j = if j = s.cur.eng.ptr then e else s.cur.eng.buf.read j) ∧
          t.cur.eng.win = s.cur.eng.win.tail ++ [e] ∧
          (s.cur.eng.Consistent s.part → t.cur.eng.Consistent t.part) ∧
          t.cur.rx = s.cur.rx ∧ s.SameElsewhere t ∧ s.Answers t .ok t.cur.eng.hash ∧
          exec (.rotate l e) s = .next t))

/-- R99 (the spec marks it derived): a successful ROTATE or ROTATE_CHECKED drops the oldest byte, appends the entering
one and keeps the length. -/
def Obligations.RotationKeepsWindowLength : Prop :=
  ∀ (l e : Byte) (s t : State) (i : Instr), (i = .rotate l e ∨ i = .rotateChecked l e) →
    s.cur.eng.Inv s.part → s.cur.eng.state = .seeded → exec i s = .next t → s.Answers t .ok t.cur.eng.hash →
    t.cur.eng.win = s.cur.eng.win.tail ++ [e] ∧ s.cur.eng.win.length = s.cur.eng.wlen.toNat ∧
      t.cur.eng.win.length = s.cur.eng.wlen.toNat

/-- R87: an overlong SEED has the state and the response of the SEED of its first WLEN bytes alone. -/
def Obligations.OverlongSeedUsesFirstBytes : Prop :=
  ∀ (n : Word32) (p : List Word64) (s : State), (Instr.seed n p).wf = true → s.cur.eng.Inv s.part →
    s.cur.eng.state ≠ .unconfigured → s.cur.eng.wlen.toNat < n.toNat →
    exec (.seed n p) s = exec (seedOf ((seedBytes n p).take s.cur.eng.wlen.toNat)) s ∧
      ∃ t, exec (.seed n p) s = .next t ∧ s.Answers t .ok t.cur.eng.hash

/-- R90 and R103 (the spec marks them derived): window length 1. -/
def Obligations.WindowOfLengthOne : Prop :=
  ∀ (s : State), s.cur.eng.Inv s.part → s.cur.eng.wlen.toNat = 1 →
    (s.cur.eng.state ≠ .unconfigured → ∀ b : Byte, ∃ t, exec (seedOf [b]) s = .next t ∧
      t.cur.eng.hash = tableRead s.part b ∧ t.cur.eng.win = [b] ∧ s.Answers t .ok (tableRead s.part b)) ∧
    (∀ o l e : Byte, s.cur.eng.state = .seeded → s.cur.eng.win = [o] → s.cur.eng.hash = tableRead s.part o →
      ∃ t, exec (.rotate l e) s = .next t ∧ t.cur.eng.win = [e] ∧
        (l = o → t.cur.eng.hash = tableRead s.part e) ∧
        (l ≠ o → t.cur.eng.hash =
          tableRead s.part e ^^^ rotl32 (tableRead s.part o ^^^ tableRead s.part l) 1))

/-- R102 (the spec marks it derived): for every WLEN the leaving term is cancelled with rotation WLEN mod 32: unrotated
when WLEN is a multiple of 32, rotated by 1 when WLEN is 33. -/
def Obligations.CancelAmountIsModulo32 : Prop :=
  ∀ (l e : Byte) (s : State), s.cur.eng.Inv s.part → s.cur.eng.state = .seeded →
    ∃ t, exec (.rotate l e) s = .next t ∧
      t.cur.eng.hash = rotl32 s.cur.eng.hash 1 ^^^
        rotl32 (tableRead s.part l) (s.cur.eng.wlen.toNat % 32) ^^^ tableRead s.part e ∧
      (s.cur.eng.wlen.toNat % 32 = 0 →
        t.cur.eng.hash = rotl32 s.cur.eng.hash 1 ^^^ tableRead s.part l ^^^ tableRead s.part e) ∧
      (s.cur.eng.wlen.toNat = 33 →
        t.cur.eng.hash = rotl32 s.cur.eng.hash 1 ^^^ rotl32 (tableRead s.part l) 1 ^^^ tableRead s.part e)

/-- R98 (the spec marks it derived): the exact hash after a wrong leaving byte, what it is after any number of right
ones, that it stays wrong while the discrepancy is not zero, and that a SEED clears it. -/
def Obligations.WrongLeavingByteGivesExactDiscrepancy : Prop :=
  ∀ (s : State), s.cur.eng.Inv s.part → s.cur.eng.state = .seeded → s.cur.eng.Consistent s.part →
    ∀ (l e o : Byte), s.cur.eng.win.head? = some o → l ≠ o →
      ∃ (t : State) (D : Word32), exec (.rotate l e) s = .next t ∧ s.Answers t .ok t.cur.eng.hash ∧
        D = rotl32 (tableRead s.part l ^^^ tableRead s.part o) (s.cur.eng.wlen.toNat % 32) ∧
        t.cur.eng.win = s.cur.eng.win.tail ++ [e] ∧
        t.cur.eng.hash = hashOf (tableRead s.part) s.cur.eng.wlen.toNat t.cur.eng.win ^^^ D ∧
        (D = 0 ↔ tableRead s.part l = tableRead s.part o) ∧
        (∀ es : List Byte, ∃ u, rollOver es t = .next u ∧
          u.cur.eng.hash =
            hashOf (tableRead s.part) s.cur.eng.wlen.toNat u.cur.eng.win ^^^ rotl32 D es.length ∧
          (D ≠ 0 → ¬ u.cur.eng.Consistent u.part)) ∧
        (∀ n p u, exec (.seed n p) t = .next u → t.Answers u .ok u.cur.eng.hash → u.cur.eng.Consistent u.part) ∧
        (∀ wl u, exec (.config wl) t = .next u → t.Answers u .ok 0 → u.cur.eng.hash = 0 ∧ u.cur.eng.win = [])

/-- R104 (the spec marks it derived): a ROTATE on a seeded instance leaves the hash as it was exactly when the rule's
equation holds, and this does happen, with a right leaving byte and a window that changes. -/
def Obligations.RotationMayKeepHash : Prop :=
  (∀ (l e : Byte) (s : State), s.cur.eng.Inv s.part → s.cur.eng.state = .seeded →
    ∃ t, exec (.rotate l e) s = .next t ∧ s.Answers t .ok t.cur.eng.hash ∧
      (t.cur.eng.hash = s.cur.eng.hash ↔
        rotl32 s.cur.eng.hash 1 ^^^ s.cur.eng.hash =
          rotl32 (tableRead s.part l) (s.cur.eng.wlen.toNat % 32) ^^^ tableRead s.part e)) ∧
  ∃ (s t : State) (l e : Byte), s.Inv ∧ s.cur.eng.state = .seeded ∧ s.cur.eng.Consistent s.part ∧
    s.cur.eng.win.head? = some l ∧ exec (.rotate l e) s = .next t ∧ t.cur.eng.win ≠ s.cur.eng.win ∧
    t.cur.eng.hash = s.cur.eng.hash

/-- R101, the core law (the spec marks it derived): CONFIG w, SEED of the first w bytes of S, and i rotations along S
end with the hash of S[i .. i+w-1] as HASH and as the last response's data, and with that window; with ROTATE and with
ROTATE_CHECKED alike. -/
def Obligations.RollingEqualsHashingDirectly : Prop :=
  ∀ (checked : Bool) (s : State) (S : List Byte) (w i : Nat), s.part.Legal → s.cur.eng.Inv s.part →
    1 ≤ w → w ≤ s.part.wmax → i + w ≤ S.length →
    ∃ t, execAll
        (.config (BitVec.ofNat 32 w) :: seedOf (S.take w) ::
          (List.range i).map fun k =>
            if checked then .rotateChecked (S.getD k 0) (S.getD (k + w) 0)
            else .rotate (S.getD k 0) (S.getD (k + w) 0)) s = .next t ∧
      t.cur.eng.hash = hashOf (tableRead s.part) w ((S.drop i).take w) ∧
      t.cur.eng.win = (S.drop i).take w ∧
      t.cur.resp.length = s.cur.resp.length + 2 + i ∧
      t.cur.resp.getLast? = some
        { host := s.cur.owner, word := responseWord .ok (hashOf (tableRead s.part) w ((S.drop i).take w)) } ∧
      ∀ r ∈ t.cur.resp.drop s.cur.resp.length, ∃ d, r.word = responseWord .ok d

/-! ### Errors and responses -/

/-- R112 to R115 and R117: the causes of the five errors a decoded command can end in, each "exactly when". -/
def Obligations.ErrorsExactlyOnTheirCauses : Prop :=
  (statusCode .eConfig = 1 ∧ statusCode .eShort = 2 ∧ statusCode .eUninit = 3 ∧ statusCode .eMismatch = 4 ∧
    statusCode .eNoConfig = 6) ∧
  ∀ (i : Instr) (s t : State) (st : Status) (d : Word32), s.cur.eng.Inv s.part →
    exec i s = .next t → s.Answers t st d →
    (st = .eConfig ↔ ∃ wl, i = .config wl ∧ (wl.toNat = 0 ∨ s.part.wmax < wl.toNat)) ∧
    (st = .eShort ↔ s.cur.eng.state ≠ .unconfigured ∧ ∃ n p, i = .seed n p ∧ n.toNat < s.cur.eng.wlen.toNat) ∧
    (st = .eUninit ↔ s.cur.eng.state = .unseeded ∧ ∃ l e, i = .rotate l e ∨ i = .rotateChecked l e) ∧
    (st = .eMismatch ↔ s.cur.eng.state = .seeded ∧
      ∃ l e, i = .rotateChecked l e ∧ s.cur.eng.win.head? ≠ some l) ∧
    (st = .eNoConfig ↔ s.cur.eng.state = .unconfigured ∧ ∀ wl, i ≠ .config wl)

/-- R111: a command that ends in an error writes no register and no BUF entry, answers DATA 0, and has still taken its
payload words. -/
def Obligations.ErrorsWriteNoState : Prop :=
  ∀ (s t : State) (c : Word64) (p : List Word64) (st : Status) (d : Word32), s.Holds c p → step s = .next t →
    s.Answers t st d → st ≠ .ok → t.cur.eng = s.cur.eng ∧ d = 0 ∧ t.cur.rx = none ∧ s.SameElsewhere t

/-- R119: exactly one status, the first that applies in the table's order, and nothing of another instance changes. -/
def Obligations.FirstApplicableErrorIsReported : Prop :=
  ∀ (s : State) (c : Word64) (p : List Word64), s.Holds c p → s.cur.eng.Inv s.part →
    let op := c.toNat / 2 ^ 60
    let low := c.toNat % 2 ^ 32
    ∃ t d, step s = .next t ∧ s.SameElsewhere t ∧ s.Answers t
      (if ¬ (1 ≤ op ∧ op ≤ 4) ∨ c.toNat / 2 ^ 32 % 2 ^ 28 ≠ 0 ∨ (3 ≤ op ∧ c.toNat / 2 ^ 16 % 2 ^ 16 ≠ 0) then .eIllegal
       else if op ≠ 1 ∧ s.cur.eng.state = .unconfigured then .eNoConfig
       else if op = 1 ∧ (low = 0 ∨ s.part.wmax < low) then .eConfig
       else if op = 2 ∧ low < s.cur.eng.wlen.toNat then .eShort
       else if (op = 3 ∨ op = 4) ∧ s.cur.eng.state = .unseeded then .eUninit
       else if op = 4 ∧ s.cur.eng.win.head? ≠ some (BitVec.ofNat 8 low) then .eMismatch
       else .ok) d

/-- R73: every command, legal or not, emits exactly one response, whose DATA is the new HASH for a successful SEED,
ROTATE or ROTATE_CHECKED and 0 for a successful CONFIG and every error, laid out as the table says. -/
def Obligations.EveryCommandAnswersOnce : Prop :=
  ∀ (s : State) (c : Word64) (p : List Word64), s.Holds c p → s.cur.eng.Inv s.part →
    ∃ t st d, step s = .next t ∧ s.Answers t st d ∧
      (st = .ok → d = if c.toNat / 2 ^ 60 = 1 then 0 else t.cur.eng.hash) ∧ (st ≠ .ok → d = 0) ∧
      (responseWord st d).toNat / 2 ^ 36 = 0 ∧ (responseWord st d).toNat / 2 ^ 32 = (statusCode st).toNat ∧
      (responseWord st d).toNat % 2 ^ 32 = d.toNat

/-- After an error the next command runs as if the failed one had not been sent (R121, R136). -/
def Obligations.FailedCommandIsTransparent : Prop :=
  ∀ (i j : Instr) (s t : State) (st : Status) (d : Word32), exec i s = .next t → s.Answers t st d → st ≠ .ok →
    (∀ u, exec j s = .next u → ∃ v, exec j t = .next v ∧ v.cur.eng = u.cur.eng ∧
      ∃ r, u.cur.resp = s.cur.resp ++ [r] ∧ v.cur.resp = t.cur.resp ++ [r]) ∧
    (∀ f, exec j s = .fault f → exec j t = .fault f)

/-- The model's own stops (log 3, log 4): a BUF index at or above WMAX and a SEED term without its payload. -/
def Obligations.IndexOutsideBufferFaults : Prop :=
  (∀ (l e : Byte) (s : State), s.cur.eng.state = .seeded → s.part.wmax ≤ s.cur.eng.ptr →
    exec (.rotate l e) s = .fault (.bufIndexOutOfRange s.cur.eng.ptr) ∧
    exec (.rotateChecked l e) s = .fault (.bufIndexOutOfRange s.cur.eng.ptr)) ∧
  (∀ (n : Word32) (p : List Word64) (s : State), s.cur.eng.state ≠ .unconfigured → s.cur.eng.wlen.toNat ≤ n.toNat →
    (8 * p.length < s.cur.eng.wlen.toNat → exec (.seed n p) s = .fault .payloadMissing) ∧
    (s.cur.eng.wlen.toNat ≤ 8 * p.length → s.part.wmax ≤ s.cur.eng.wlen.toNat - 1 →
      exec (.seed n p) s = .fault (.bufIndexOutOfRange (s.cur.eng.wlen.toNat - 1))))

/-! ### Registers over all commands -/

/-- R82: the legal window lengths are 1 .. WMAX; after a successful CONFIG WLEN holds WL, and no other command changes
it. -/
def Obligations.OnlyConfigWritesWlen : Prop :=
  (∀ (wl : Word32) (s : State), (∃ t, exec (.config wl) s = .next t ∧ s.Answers t .ok 0) ↔
    (1 ≤ wl.toNat ∧ wl.toNat ≤ s.part.wmax)) ∧
  (∀ (wl : Word32) (s t : State), exec (.config wl) s = .next t → s.Answers t .ok 0 → t.cur.eng.wlen = wl) ∧
  ∀ (i : Instr) (s t : State), (∀ wl, i ≠ .config wl) → exec i s = .next t → t.cur.eng.wlen = s.cur.eng.wlen

/-- The transitions of STATE (R23) and the writers of HASH (R25), over all commands; what else a step may do to them is
`RegistersMoveOnlyByCommandOrReset`. -/
def Obligations.StateMovesOnlyAsListed : Prop :=
  (stateCode .unconfigured = 0 ∧ stateCode .unseeded = 1 ∧ stateCode .seeded = 2) ∧
  ∀ (i : Instr) (s t : State) (st : Status) (d : Word32), exec i s = .next t → s.Answers t st d →
    (st ≠ .ok → t.cur.eng.state = s.cur.eng.state ∧ t.cur.eng.hash = s.cur.eng.hash) ∧
    (st = .ok →
      (∀ wl, i = .config wl → t.cur.eng.state = .unseeded ∧ t.cur.eng.hash = 0) ∧
      (∀ n p, i = .seed n p → s.cur.eng.state ≠ .unconfigured ∧ t.cur.eng.state = .seeded ∧ t.cur.eng.hash = d) ∧
      (∀ l e, (i = .rotate l e ∨ i = .rotateChecked l e) →
        s.cur.eng.state = .seeded ∧ t.cur.eng.state = .seeded ∧ t.cur.eng.hash = d))

/-- R91 and R92 (the spec marks R92 derived): a successful SEED leaves HASH and WIN that depend on TABLE, WLEN and the
first WLEN bytes alone, whatever the two instances' histories. -/
def Obligations.SeedForgetsHistory : Prop :=
  ∀ (s s' : State) (n n' : Word32) (p p' : List Word64) (t t' : State),
    s.cur.eng.Inv s.part → s'.cur.eng.Inv s'.part →
    (Instr.seed n p).wf = true → (Instr.seed n' p').wf = true →
    s.part.rom = s'.part.rom → s.cur.eng.wlen = s'.cur.eng.wlen →
    (seedBytes n p).take s.cur.eng.wlen.toNat = (seedBytes n' p').take s.cur.eng.wlen.toNat →
    exec (.seed n p) s = .next t → s.Answers t .ok t.cur.eng.hash →
    exec (.seed n' p') s' = .next t' → s'.Answers t' .ok t'.cur.eng.hash →
    t.cur.eng.SameView t'.cur.eng ∧ t.cur.eng.state = .seeded ∧ t.cur.eng.ptr = t'.cur.eng.ptr

/-- Repeating a SEED gives the same state and the same response (R48, which the spec marks derived). -/
def Obligations.SeedRepeatsItself : Prop :=
  ∀ (n : Word32) (p : List Word64) (s t : State), exec (.seed n p) s = .next t →
    ∃ u r, exec (.seed n p) t = .next u ∧ u.cur.eng = t.cur.eng ∧
      t.cur.resp = s.cur.resp ++ [r] ∧ u.cur.resp = t.cur.resp ++ [r]

/-- PTR and the BUF entries outside the window are hidden (R27, R28, R33): from two register states that no observation
tells apart, every command answers alike and leaves two such states again. -/
def Obligations.HiddenStateStaysHidden : Prop :=
  ∀ (i : Instr) (s s' : State), i.wf = true → s.cur.eng.Inv s.part → s'.cur.eng.Inv s'.part → s.part = s'.part →
    s.cur.owner = s'.cur.owner → s.cur.eng.SameView s'.cur.eng →
    ∃ t t' r, exec i s = .next t ∧ exec i s' = .next t' ∧
      t.cur.resp = s.cur.resp ++ [r] ∧ t'.cur.resp = s'.cur.resp ++ [r] ∧ t.cur.eng.SameView t'.cur.eng

/-! ### Instances and the shared table -/

/-- R34: a command reads its own instance and the parameters only, and writes its own instance only. -/
def Obligations.CommandTouchesOwnInstanceOnly : Prop :=
  ∀ (i : Instr) (s s' : State), s.part = s'.part → s.cur = s'.cur →
    (∀ t, exec i s = .next t →
      s.SameElsewhere t ∧ t.cur.rx = s.cur.rx ∧ ∃ t', exec i s' = .next t' ∧ t'.cur = t.cur) ∧
    (∀ f, exec i s = .fault f → exec i s' = .fault f) ∧
    ∀ r, exec i s ≠ .refused r

/-- R52 (the spec marks it derived): commands on two different instances give the same result in either order. -/
def Obligations.InstancesCommute : Prop :=
  ∀ (s : State) (a b : Nat) (i j : Instr), s.Inv → i.wf = true → j.wf = true → a ≠ b →
    a < s.insts.length → b < s.insts.length →
    ∃ t1 t2 u1 u2, execOn a i s = .next t1 ∧ execOn b j t1 = .next t2 ∧
      execOn b j s = .next u1 ∧ execOn a i u1 = .next u2 ∧ t2.insts = u2.insts

/-- R42: no command, reset or other event writes `table_rom`, nor any other parameter or the number of instances. -/
def Obligations.NothingWritesTableRom : Prop :=
  ∀ s t : State, step s = .next t →
    (∀ b, tableRead t.part b = tableRead s.part b) ∧ t.part = s.part ∧ t.insts.length = s.insts.length

/-! ### Steps, ports, hosts and reset -/

/-- When the words accepted by the selected port are those of a well-formed command, the step is that command, with
its words consumed; the words the encoder gives are such words. That it is the very next step is the model's choice
(log 7). -/
def Obligations.StepRunsDecodedCommand : Prop :=
  ∀ (s : State) (c : Word64) (p : List Word64) (i : Instr), s.Holds c p →
    (decodeFrame c p = .ok i → step s = exec i s.consumed) ∧
    (i.wf = true → encode i = c :: p → step s = exec i s.consumed)

/-- `withFetchWord` places an instruction of the opcode table where the next step runs it (log 13). -/
def Obligations.FetchWordRunsNext : Prop :=
  ∀ (s : State) (nbits w : Nat) (i : Instr), decodeTableWord nbits w = some i →
    i.wf = true ∧ step (s.withFetchWord nbits w) = exec i ({ s with rst := false } : State).consumed

/-- A command that a host sends word by word to an idle instance is executed once, by the step after its last word, on
the state it found (R60, R67, R139): neither its payload nor anything else runs before. The model's choices it rests
on: the host events (log 6), execution at the very next step (log 7), that the header is accepted because fewer than
RESP_DEPTH responses wait and the payload is never held back (log 9), the port's owner (log 10). -/
def Obligations.SentCommandExecutesOnce : Prop :=
  ∀ (s t : State) (i : Instr) (h k : Nat) (rest : List HostEvent),
    i.wf = true → s.rst = false → s.fetch = none → s.select k = some t → t.cur.rx = none →
    t.cur.resp.length < s.part.respDepth → s.inputs = (encode i).map (HostEvent.send h k) ++ rest →
    core.run ((encode i).length + 1) s =
      exec i { t with inputs := rest, cur := { t.cur with owner := h } }

/-- Backpressure (R139, log 9): a header is accepted exactly when fewer than RESP_DEPTH responses wait; an offer that is
not accepted moves nothing. -/
def Obligations.HeaderAcceptedExactlyWhenRoom : Prop :=
  ∀ (s : State) (h : Nat) (w : Word64), s.rst = false → s.cur.rx = none →
    (s.cur.resp.length < s.part.respDepth →
      (s.offer h w).cur.rx = some { header := w, payload := [], missing := commandLength w - 1 } ∧
      (s.offer h w).cur.owner = h ∧ (s.offer h w).cur.eng = s.cur.eng ∧ (s.offer h w).cur.resp = s.cur.resp) ∧
    (s.part.respDepth ≤ s.cur.resp.length → s.offer h w = s)

/-- Several hosts on one port (R51, log 10, log 11): while a command is being accepted no other host's word moves, its response
goes to the host that sent it, and no other host can take it. -/
def Obligations.PortKeepsHostsApart : Prop :=
  (∀ (s : State) (f : Frame) (h : Nat) (w : Word64), s.cur.rx = some f → h ≠ s.cur.owner → s.offer h w = s) ∧
  (∀ (i : Instr) (s t : State), exec i s = .next t →
    ∃ r, t.cur.resp = s.cur.resp ++ [r] ∧ r.host = s.cur.owner) ∧
  (∀ (i : Inst) (h : Nat) (r : Response) (rs : List Response), i.resp = r :: rs →
    (r.host ≠ h → i.take h = i) ∧ (r.host = h → (i.take h).resp = rs ∧ (i.take h).taken = i.taken ++ [r]))

/-- Responses leave in the order of the commands (R50): but for the assertion of `rst`, a step keeps the sequence of
responses of every instance, taken or waiting, and adds at most one, at its end, and only where a command executes.
The host events and the record of taken responses are the model's (log 6, log 11). -/
def Obligations.ResponsesKeepCommandOrder : Prop :=
  ∀ (s t : State), step s = .next t → (s.fetch = none → s.inputs.head? ≠ some (.rst true)) →
    ∀ (k : Nat) (i : Inst), s.insts[k]? = some i →
      ∃ (j : Inst) (new : List Response), t.insts[k]? = some j ∧ j.taken ++ j.resp = i.taken ++ i.resp ++ new ∧
        new.length = if s.fetch ≠ none ∧ k = s.sel then 1 else 0

/-- R130 and R132, on the model's host events (log 6, log 7, log 12); that an instance in reset is exactly
`Inst.reset` is the model's choice for BUF (log 2, which the spec leaves unspecified), for the port's owner (log 10)
and for the record of taken responses (log 11), and that the last clause's word is accepted rests on log 9: asserting
`rst` resets every instance at once, abandons what is partly accepted, discards the waiting responses and leaves
`table_rom` alone; no word is accepted until it is released, and then the next word is the first word of a command. -/
def Obligations.ResetEventResetsEveryInstance : Prop :=
  ∀ (s : State) (rest : List HostEvent), s.fetch = none →
    (s.inputs = .rst true :: rest →
      ∃ t, step s = .next t ∧ t.rst = true ∧ t.insts.length = s.insts.length ∧ (∀ i ∈ t.insts, i = Inst.reset) ∧
        t.part = s.part ∧ t.inputs = rest) ∧
    (∀ h k w, s.rst = true → s.inputs = .send h k w :: rest → s.Inv →
      ∃ t, step s = .next t ∧ t.insts = s.insts ∧ t.rst = true ∧ t.inputs = rest) ∧
    (s.inputs = .rst false :: rest → step s = .next { s with rst := false, inputs := rest }) ∧
    (∀ h w, s.rst = false → s.cur = Inst.reset → s.part.Legal →
      (s.offer h w).cur.rx = some { header := w, payload := [], missing := commandLength w - 1 })

/-- R131 and R33: the reset state, of `State.reset` and of every part. -/
def Obligations.ResetStateValues : Prop :=
  (∃ more, State.reset = State.resetOf Config.part more) ∧ Config.part.Legal ∧
  State.reset.insts.length = Config.nEngines ∧
  ∀ (p : Part) (more : Nat), (State.resetOf p more).insts.length = more + 1 ∧ (State.resetOf p more).part = p ∧
    ∀ i ∈ (State.resetOf p more).insts, i.eng.state = .unconfigured ∧ i.eng.wlen = 0 ∧ i.eng.hash = 0 ∧
      i.eng.ptr = 0 ∧ i.eng.win = [] ∧ i.rx = none ∧ i.resp = []

/-- With no command waiting and no host event left, the hardware holds its state indefinitely (R127; log 6). -/
def Obligations.IdleHardwareHoldsState : Prop :=
  ∀ (s : State) (n : Nat), s.fetch = none → s.inputs = [] → core.run n s = .next s

/-! ### Headlines -/

/-- The invariant holds after reset. What it says of the ports is named at `StepKeepsInvariant`. -/
def Obligations.ResetMeetsInvariant : Prop :=
  State.reset.Inv ∧ ∀ (p : Part) (more : Nat), p.Legal → (State.resetOf p more).Inv

/-- Every step keeps the invariant: canonical BUF inside 0 .. WMAX-1, a legal WLEN, PTR below WLEN, bounded response
queues, well-framed commands, legal response words, everything in reset while `rst` is asserted. The model's choices
in it: complete commands wait on the selected instance only (log 7, log 8), a command is accepted only with room for
its response (log 9), and an instance in reset is exactly `Inst.reset` (log 2, log 10, log 11, log 12). -/
def Obligations.StepKeepsInvariant : Prop :=
  ∀ s t : State, s.Inv → step s = .next t → t.Inv

/-- The engine never stops (R110): from every state that meets the invariant, every run goes on for ever, through any
command words and any host behaviour (host events: log 6). -/
def Obligations.EngineNeverStops : Prop :=
  ∀ s : State, s.Inv → SafeRun s

/-- R29 (the spec marks it derived): as long as no ROTATE breaks the caller contract, HASH is the hash of the window
on every seeded instance, along every run from a state where it is (a run with the host events of log 6). -/
def Obligations.HashStaysConsistentWithWindow : Prop :=
  ∀ (n : Nat) (s t : State), s.Inv → s.Consistent →
    (∀ k u, k < n → core.run k s = .next u → u.KeepsContract) → core.run n s = .next t → t.Consistent

/-- Over all steps, the registers and BUF of an instance change only where a command of that instance executes, or by
the assertion of `rst`: an accepted word, a response taken, the release of `rst` and another instance's command leave
them (R23, R25, R32; the host events are log 6). -/
def Obligations.RegistersMoveOnlyByCommandOrReset : Prop :=
  ∀ (s t : State), step s = .next t →
    ∀ (k : Nat) (i : Inst), s.insts[k]? = some i →
      ∃ j : Inst, t.insts[k]? = some j ∧
        (¬ (s.fetch ≠ none ∧ k = s.sel) → (s.fetch = none → s.inputs.head? ≠ some (.rst true)) → j.eng = i.eng)
end

