-- ==== Sys2Proof/Laws/Decode.lean ====
section
/-! SUPPORT. The fields of command words: as numbers, and of the words the encoder makes. -/

namespace Sys2Proof

open Sys2Proof.Machine

variable (c : Word64)

theorem opField_toNat : (opField c).toNat = c.toNat / 2 ^ 60 := by
  have := c.isLt
  simp [opField, BitVec.extractLsb'_toNat, Nat.shiftRight_eq_div_pow]
  omega

theorem rsvField_toNat : (rsvField c).toNat = c.toNat / 2 ^ 32 % 2 ^ 28 := by
  simp [rsvField, BitVec.extractLsb'_toNat, Nat.shiftRight_eq_div_pow]

theorem argField_toNat : (argField c).toNat = c.toNat % 2 ^ 32 := by
  simp [argField, BitVec.extractLsb'_toNat]

theorem rsvbField_toNat : (rsvbField c).toNat = c.toNat / 2 ^ 16 % 2 ^ 16 := by
  simp [rsvbField, BitVec.extractLsb'_toNat, Nat.shiftRight_eq_div_pow]

theorem enteringField_toNat : (enteringField c).toNat = c.toNat / 2 ^ 8 % 2 ^ 8 := by
  simp [enteringField, BitVec.extractLsb'_toNat, Nat.shiftRight_eq_div_pow]

theorem leavingField_toNat : (leavingField c).toNat = c.toNat % 2 ^ 8 := by
  simp [leavingField, BitVec.extractLsb'_toNat]

/-- Bits 59..16 are zero exactly when RSV and RSVB are. -/
theorem rsv_rsvb_zero_iff : (rsvField c = 0 ∧ rsvbField c = 0) ↔ c.toNat / 2 ^ 16 % 2 ^ 44 = 0 := by
  have h1 := rsvField_toNat c
  have h2 := rsvbField_toNat c
  have e1 : rsvField c = 0 ↔ (rsvField c).toNat = 0 := by simp [← BitVec.toNat_inj]
  have e2 : rsvbField c = 0 ↔ (rsvbField c).toNat = 0 := by simp [← BitVec.toNat_inj]
  rw [e1, e2, h1, h2]
  omega

theorem rsv_zero_iff : rsvField c = 0 ↔ c.toNat / 2 ^ 32 % 2 ^ 28 = 0 := by
  rw [← rsvField_toNat]
  simp [← BitVec.toNat_inj]

/-- Testing OP by its number. -/
theorem opField_eq_iff (k : BitVec 4) : opField c = k ↔ c.toNat / 2 ^ 60 = k.toNat := by
  rw [← opField_toNat, BitVec.toNat_inj]

/-! ### The words the encoder makes -/

/-- Concatenation as numbers. -/
theorem append_toNat {m n : Nat} (x : BitVec m) (y : BitVec n) : (x ++ y).toNat = x.toNat * 2 ^ n + y.toNat := by
  rw [BitVec.toNat_append, ← Nat.shiftLeft_add_eq_or_of_lt y.isLt, Nat.shiftLeft_eq]

theorem wordOfArg_toNat (op : BitVec 4) (a : Word32) :
    (wordOfArg op a).toNat = op.toNat * 2 ^ 60 + a.toNat := by
  simp only [wordOfArg, append_toNat, BitVec.toNat_ofNat]
  omega

theorem wordOfBytes_toNat (op : BitVec 4) (l e : Byte) :
    (wordOfBytes op l e).toNat = op.toNat * 2 ^ 60 + e.toNat * 2 ^ 8 + l.toNat := by
  simp only [wordOfBytes, append_toNat, BitVec.toNat_ofNat]
  omega

section
variable (op : BitVec 4) (a : Word32) (l e : Byte)

@[simp] theorem opField_wordOfArg : opField (wordOfArg op a) = op := by
  have := a.isLt; have := op.isLt
  rw [opField_eq_iff, wordOfArg_toNat]; omega

@[simp] theorem rsvField_wordOfArg : rsvField (wordOfArg op a) = 0 := by
  have := a.isLt; have := op.isLt
  rw [rsv_zero_iff, wordOfArg_toNat]; omega

@[simp] theorem argField_wordOfArg : argField (wordOfArg op a) = a := by
  have := a.isLt; have := op.isLt
  rw [← BitVec.toNat_inj, argField_toNat, wordOfArg_toNat]; omega

@[simp] theorem opField_wordOfBytes : opField (wordOfBytes op l e) = op := by
  have := l.isLt; have := e.isLt; have := op.isLt
  rw [opField_eq_iff, wordOfBytes_toNat]; omega

theorem rsvs_wordOfBytes : rsvField (wordOfBytes op l e) = 0 ∧ rsvbField (wordOfBytes op l e) = 0 := by
  have := l.isLt; have := e.isLt; have := op.isLt
  rw [rsv_rsvb_zero_iff, wordOfBytes_toNat]; omega

@[simp] theorem rsvField_wordOfBytes : rsvField (wordOfBytes op l e) = 0 := (rsvs_wordOfBytes op l e).1

@[simp] theorem rsvbField_wordOfBytes : rsvbField (wordOfBytes op l e) = 0 := (rsvs_wordOfBytes op l e).2

@[simp] theorem leavingField_wordOfBytes : leavingField (wordOfBytes op l e) = l := by
  have := l.isLt; have := e.isLt; have := op.isLt
  rw [← BitVec.toNat_inj, leavingField_toNat, wordOfBytes_toNat]; omega

@[simp] theorem enteringField_wordOfBytes : enteringField (wordOfBytes op l e) = e := by
  have := l.isLt; have := e.isLt; have := op.isLt
  rw [← BitVec.toNat_inj, enteringField_toNat, wordOfBytes_toNat]; omega

end

/-- The payload words that follow a header, by the number of bytes it announces. -/
theorem payloadWordsAfter_wordOfArg (op : BitVec 4) (a : Word32) :
    payloadWordsAfter (wordOfArg op a) = if op = 2#4 then payloadWordCount a.toNat else 0 := by
  simp [payloadWordsAfter]

theorem payloadWordsAfter_wordOfBytes (op : BitVec 4) (l e : Byte) (h : op ≠ 2#4) :
    payloadWordsAfter (wordOfBytes op l e) = 0 := by
  simp [payloadWordsAfter, h]

/-- What a decoded frame says of its command word: one case per row of the opcode map (R65). -/
theorem decodeFrame_ok {c : Word64} {p : List Word64} {i : Instr} (h : decodeFrame c p = .ok i) :
    (opField c = 1#4 ∧ rsvField c = 0 ∧ i = .config (argField c)) ∨
    (opField c = 2#4 ∧ rsvField c = 0 ∧ i = .seed (argField c) p) ∨
    (opField c = 3#4 ∧ (rsvField c = 0 ∧ rsvbField c = 0) ∧ i = .rotate (leavingField c) (enteringField c)) ∨
    (opField c = 4#4 ∧ (rsvField c = 0 ∧ rsvbField c = 0) ∧
      i = .rotateChecked (leavingField c) (enteringField c)) := by
  unfold decodeFrame at h
  split at h
  · next h1 =>
    split at h
    · next h2 => cases h; exact Or.inl ⟨h1, h2, rfl⟩
    · cases h
  · split at h
    · next h1 =>
      split at h
      · next h2 => cases h; exact Or.inr (Or.inl ⟨h1, h2, rfl⟩)
      · cases h
    · split at h
      · next h1 =>
        split at h
        · next h2 => cases h; exact Or.inr (Or.inr (Or.inl ⟨h1, h2, rfl⟩))
        · cases h
      · split at h
        · next h1 =>
          split at h
          · next h2 => cases h; exact Or.inr (Or.inr (Or.inr ⟨h1, h2, rfl⟩))
          · cases h
        · cases h

end Sys2Proof
end

