-- ==== Sys2Proof/Laws/State.lean ====
section
/-! SUPPORT. What each state update leaves in each field: true by rfl, for simp. -/

namespace Sys2Proof.Machine

variable (s : State) (e : Engine) (st : Status) (data : Word32) (wl : Word32) (T : Byte → Word32) (win : List Byte)
  (l b : Byte)

/-! ### setEng -/
@[simp] theorem setEng_part : (s.setEng e).part = s.part := rfl
@[simp] theorem setEng_below : (s.setEng e).below = s.below := rfl
@[simp] theorem setEng_above : (s.setEng e).above = s.above := rfl
@[simp] theorem setEng_rst : (s.setEng e).rst = s.rst := rfl
@[simp] theorem setEng_inputs : (s.setEng e).inputs = s.inputs := rfl
@[simp] theorem setEng_eng : (s.setEng e).cur.eng = e := rfl
@[simp] theorem setEng_owner : (s.setEng e).cur.owner = s.cur.owner := rfl
@[simp] theorem setEng_rx : (s.setEng e).cur.rx = s.cur.rx := rfl
@[simp] theorem setEng_resp : (s.setEng e).cur.resp = s.cur.resp := rfl
@[simp] theorem setEng_taken : (s.setEng e).cur.taken = s.cur.taken := rfl

/-! ### respond -/
@[simp] theorem respond_part : (s.respond st data).part = s.part := rfl
@[simp] theorem respond_below : (s.respond st data).below = s.below := rfl
@[simp] theorem respond_above : (s.respond st data).above = s.above := rfl
@[simp] theorem respond_rst : (s.respond st data).rst = s.rst := rfl
@[simp] theorem respond_inputs : (s.respond st data).inputs = s.inputs := rfl
@[simp] theorem respond_eng : (s.respond st data).cur.eng = s.cur.eng := rfl
@[simp] theorem respond_owner : (s.respond st data).cur.owner = s.cur.owner := rfl
@[simp] theorem respond_rx : (s.respond st data).cur.rx = s.cur.rx := rfl
@[simp] theorem respond_taken : (s.respond st data).cur.taken = s.cur.taken := rfl
@[simp] theorem respond_resp :
    (s.respond st data).cur.resp = s.cur.resp ++ [{ host := s.cur.owner, word := responseWord st data }] := rfl

/-! ### raise -/
@[simp] theorem raise_part : (s.raise st).part = s.part := rfl
@[simp] theorem raise_below : (s.raise st).below = s.below := rfl
@[simp] theorem raise_above : (s.raise st).above = s.above := rfl
@[simp] theorem raise_rst : (s.raise st).rst = s.rst := rfl
@[simp] theorem raise_inputs : (s.raise st).inputs = s.inputs := rfl
@[simp] theorem raise_eng : (s.raise st).cur.eng = s.cur.eng := rfl
@[simp] theorem raise_owner : (s.raise st).cur.owner = s.cur.owner := rfl
@[simp] theorem raise_rx : (s.raise st).cur.rx = s.cur.rx := rfl
@[simp] theorem raise_taken : (s.raise st).cur.taken = s.cur.taken := rfl
@[simp] theorem raise_resp :
    (s.raise st).cur.resp = s.cur.resp ++ [{ host := s.cur.owner, word := responseWord st 0 }] := rfl

/-! ### complete -/
@[simp] theorem complete_part : (s.complete e data).part = s.part := rfl
@[simp] theorem complete_below : (s.complete e data).below = s.below := rfl
@[simp] theorem complete_above : (s.complete e data).above = s.above := rfl
@[simp] theorem complete_rst : (s.complete e data).rst = s.rst := rfl
@[simp] theorem complete_inputs : (s.complete e data).inputs = s.inputs := rfl
@[simp] theorem complete_eng : (s.complete e data).cur.eng = e := rfl
@[simp] theorem complete_owner : (s.complete e data).cur.owner = s.cur.owner := rfl
@[simp] theorem complete_rx : (s.complete e data).cur.rx = s.cur.rx := rfl
@[simp] theorem complete_taken : (s.complete e data).cur.taken = s.cur.taken := rfl
@[simp] theorem complete_resp : (s.complete e data).cur.resp =
    s.cur.resp ++ [{ host := s.cur.owner, word := responseWord .ok data }] := rfl

/-! ### consumed -/
@[simp] theorem consumed_part : s.consumed.part = s.part := rfl
@[simp] theorem consumed_below : s.consumed.below = s.below := rfl
@[simp] theorem consumed_above : s.consumed.above = s.above := rfl
@[simp] theorem consumed_rst : s.consumed.rst = s.rst := rfl
@[simp] theorem consumed_inputs : s.consumed.inputs = s.inputs := rfl
@[simp] theorem consumed_eng : s.consumed.cur.eng = s.cur.eng := rfl
@[simp] theorem consumed_owner : s.consumed.cur.owner = s.cur.owner := rfl
@[simp] theorem consumed_rx : s.consumed.cur.rx = none := rfl
@[simp] theorem consumed_resp : s.consumed.cur.resp = s.cur.resp := rfl
@[simp] theorem consumed_taken : s.consumed.cur.taken = s.cur.taken := rfl

/-! ### The register writes of the commands -/
@[simp] theorem configured_state : (e.configured wl).state = .unseeded := rfl
@[simp] theorem configured_wlen : (e.configured wl).wlen = wl := rfl
@[simp] theorem configured_hash : (e.configured wl).hash = 0 := rfl
@[simp] theorem configured_buf : (e.configured wl).buf = e.buf.clear wl.toNat := rfl
@[simp] theorem configured_ptr : (e.configured wl).ptr = 0 := rfl
@[simp] theorem loaded_state : (e.loaded T win).state = .seeded := rfl
@[simp] theorem loaded_wlen : (e.loaded T win).wlen = e.wlen := rfl
@[simp] theorem loaded_hash : (e.loaded T win).hash = hashOf T e.wlen.toNat win := rfl
@[simp] theorem loaded_buf : (e.loaded T win).buf = e.buf.load win := rfl
@[simp] theorem loaded_ptr : (e.loaded T win).ptr = 0 := rfl
@[simp] theorem rotated_state : (e.rotated T l b).state = e.state := rfl
@[simp] theorem rotated_wlen : (e.rotated T l b).wlen = e.wlen := rfl
@[simp] theorem rotated_hash : (e.rotated T l b).hash = rotStep T e.wlen.toNat e.hash l b := rfl
@[simp] theorem rotated_buf : (e.rotated T l b).buf = e.buf.write e.ptr b := rfl
@[simp] theorem rotated_ptr : (e.rotated T l b).ptr = (e.ptr + 1) % e.wlen.toNat := rfl

end Sys2Proof.Machine
end

