-- ==== Sys2Proof/Laws/Exec.lean ====
section
/-! SUPPORT. Once for each shared operation and each meaning: everything it can answer. -/

namespace Sys2Proof.Machine

/-- An operation on a BUF index goes on only below WMAX. -/
theorem withBufIndex_next {s t : State} {j : Nat} {k : Host.Outcome State Fault Refusal}
    (h : withBufIndex s j k = .next t) : j < s.part.wmax ∧ k = .next t := by
  unfold withBufIndex at h
  split at h
  · next hj => exact ⟨hj, h⟩
  · cases h

theorem withBufIndex_of_lt {s : State} {j : Nat} {k : Host.Outcome State Fault Refusal} (h : j < s.part.wmax) :
    withBufIndex s j k = k := if_pos h

/-- What CONFIG can do (R80). -/
theorem execConfig_cases {wl : Word32} {s t : State} (h : execConfig wl s = .next t) :
    ((wl = 0 ∨ s.part.wmax < wl.toNat) ∧ t = s.raise .eConfig) ∨
    (¬ (wl = 0 ∨ s.part.wmax < wl.toNat) ∧ t = s.complete (s.cur.eng.configured wl) 0) := by
  unfold execConfig at h
  injection h with h
  split at h
  · next hc => exact Or.inl ⟨hc, h.symm⟩
  · next hc => exact Or.inr ⟨hc, h.symm⟩

/-- What loading a window can do (R86). -/
theorem seedWindow_cases {win : List Byte} {s t : State} (h : seedWindow win s = .next t) :
    s.cur.eng.wlen.toNat - 1 < s.part.wmax ∧
      t = s.complete (s.cur.eng.loaded (tableRead s.part) win)
        (hashOf (tableRead s.part) s.cur.eng.wlen.toNat win) := by
  obtain ⟨hj, h⟩ := withBufIndex_next h
  injection h with h
  exact ⟨hj, h.symm⟩

/-- What SEED can do (R86 to R88). -/
theorem execSeed_cases {n : Word32} {p : List Word64} {s t : State} (h : execSeed n p s = .next t) :
    (s.cur.eng.state = .unconfigured ∧ t = s.raise .eNoConfig) ∨
    (s.cur.eng.state ≠ .unconfigured ∧ n.toNat < s.cur.eng.wlen.toNat ∧ t = s.raise .eShort) ∨
    (s.cur.eng.state ≠ .unconfigured ∧ s.cur.eng.wlen.toNat ≤ n.toNat ∧
      s.cur.eng.wlen.toNat ≤ (seedBytes n p).length ∧ s.cur.eng.wlen.toNat - 1 < s.part.wmax ∧
      t = s.complete (s.cur.eng.loaded (tableRead s.part) ((seedBytes n p).take s.cur.eng.wlen.toNat))
        (hashOf (tableRead s.part) s.cur.eng.wlen.toNat ((seedBytes n p).take s.cur.eng.wlen.toNat))) := by
  unfold execSeed at h
  split at h
  · next h1 => injection h with h; exact Or.inl ⟨h1, h.symm⟩
  · next h1 =>
    split at h
    · next h2 => injection h with h; exact Or.inr (Or.inl ⟨h1, h2, h.symm⟩)
    · next h2 =>
      split at h
      · cases h
      · next h3 =>
        obtain ⟨hj, h⟩ := seedWindow_cases h
        exact Or.inr (Or.inr ⟨h1, Nat.not_lt.1 h2, Nat.not_lt.1 h3, hj, h⟩)

/-- What ROTATE can do (R96). -/
theorem execRotate_cases {l e : Byte} {s t : State} (h : execRotate l e s = .next t) :
    (s.cur.eng.state = .unconfigured ∧ t = s.raise .eNoConfig) ∨
    (s.cur.eng.state = .unseeded ∧ t = s.raise .eUninit) ∨
    (s.cur.eng.state = .seeded ∧ s.cur.eng.ptr < s.part.wmax ∧ t = slideWindow l e s) := by
  unfold execRotate at h
  split at h
  · next h1 => injection h with h; exact Or.inl ⟨h1, h.symm⟩
  · next h1 => injection h with h; exact Or.inr (Or.inl ⟨h1, h.symm⟩)
  · next h1 =>
    obtain ⟨hj, h⟩ := withBufIndex_next h
    injection h with h
    exact Or.inr (Or.inr ⟨h1, hj, h.symm⟩)

/-- What ROTATE_CHECKED can do (R97). -/
theorem execRotateChecked_cases {l e : Byte} {s t : State} (h : execRotateChecked l e s = .next t) :
    (s.cur.eng.state = .unconfigured ∧ t = s.raise .eNoConfig) ∨
    (s.cur.eng.state = .unseeded ∧ t = s.raise .eUninit) ∨
    (s.cur.eng.state = .seeded ∧ s.cur.eng.ptr < s.part.wmax ∧
      ((l ≠ s.cur.eng.buf.read s.cur.eng.ptr ∧ t = s.raise .eMismatch) ∨
       (l = s.cur.eng.buf.read s.cur.eng.ptr ∧ t = slideWindow l e s))) := by
  unfold execRotateChecked at h
  split at h
  · next h1 => injection h with h; exact Or.inl ⟨h1, h.symm⟩
  · next h1 => injection h with h; exact Or.inr (Or.inl ⟨h1, h.symm⟩)
  · next h1 =>
    obtain ⟨hj, h⟩ := withBufIndex_next h
    injection h with h
    split at h
    · next h2 => exact Or.inr (Or.inr ⟨h1, hj, Or.inr ⟨h2, h.symm⟩⟩)
    · next h2 => exact Or.inr (Or.inr ⟨h1, hj, Or.inl ⟨h2, h.symm⟩⟩)

/-- Rotations complete as the shared slide. -/
theorem slideWindow_eq (l e : Byte) (s : State) :
    slideWindow l e s = s.complete (s.cur.eng.rotated (tableRead s.part) l e)
      (rotStep (tableRead s.part) s.cur.eng.wlen.toNat s.cur.eng.hash l e) := rfl

/-- Every command that completes either raises an error or writes registers and answers OK. -/
theorem exec_cases {i : Instr} {s t : State} (h : exec i s = .next t) :
    (∃ st, st ≠ .ok ∧ t = s.raise st) ∨ ∃ e d, t = s.complete e d := by
  cases i with
  | config wl =>
    rcases execConfig_cases h with ⟨-, h⟩ | ⟨-, h⟩
    · exact Or.inl ⟨_, by decide, h⟩
    · exact Or.inr ⟨_, _, h⟩
  | seed n p =>
    rcases execSeed_cases h with ⟨-, h⟩ | ⟨-, -, h⟩ | ⟨-, -, -, -, h⟩
    · exact Or.inl ⟨_, by decide, h⟩
    · exact Or.inl ⟨_, by decide, h⟩
    · exact Or.inr ⟨_, _, h⟩
  | rotate l e =>
    rcases execRotate_cases h with ⟨-, h⟩ | ⟨-, h⟩ | ⟨-, -, h⟩
    · exact Or.inl ⟨_, by decide, h⟩
    · exact Or.inl ⟨_, by decide, h⟩
    · exact Or.inr ⟨_, _, h⟩
  | rotateChecked l e =>
    rcases execRotateChecked_cases h with ⟨-, h⟩ | ⟨-, h⟩ | ⟨-, -, ⟨-, h⟩ | ⟨-, h⟩⟩
    · exact Or.inl ⟨_, by decide, h⟩
    · exact Or.inl ⟨_, by decide, h⟩
    · exact Or.inl ⟨_, by decide, h⟩
    · exact Or.inr ⟨_, _, h⟩

end Sys2Proof.Machine
end

