-- ==== Sys2Proof/Laws/Hash.lean ====
section
/-! SUPPORT. Small laws of the rotation and of the terms of the hash. -/

namespace Sys2Proof.Machine

/-- The formula of R12 is the library's rotation. -/
theorem rotl32_eq_rotateLeft (x : Word32) (k : Nat) : rotl32 x k = x.rotateLeft k := by
  rw [rotl32, BitVec.rotateLeft_def]
  split
  · next h =>
    have : x >>> 32 = 0 := BitVec.eq_of_toNat_eq (by simp [Nat.shiftRight_eq_div_pow]; omega)
    simp [h, this]
  · rfl

/-- The amount counts modulo 32. -/
theorem rotl32_mod (x : Word32) (k : Nat) : rotl32 x (k % 32) = rotl32 x k := by simp [rotl32]

theorem rotl32_congr (x : Word32) {a b : Nat} (h : a % 32 = b % 32) : rotl32 x a = rotl32 x b := by
  simp [rotl32, h]

@[simp] theorem rotl32_blank (k : Nat) : rotl32 0#32 k = 0#32 := by
  rw [rotl32]; split <;> simp

@[simp] theorem hashTerms_nil (T : Byte → Word32) (w i : Nat) : hashTerms T w i [] = 0#32 := rfl

theorem hashTerms_cons (T : Byte → Word32) (w i : Nat) (b : Byte) (bs : List Byte) :
    hashTerms T w i (b :: bs) = rotl32 (T b) ((w - 1 - i) % 32) ^^^ hashTerms T w (i + 1) bs := rfl

/-- The terms of two runs of bytes, one after the other. -/
theorem hashTerms_append (T : Byte → Word32) (w i : Nat) (as bs : List Byte) :
    hashTerms T w i (as ++ bs) = hashTerms T w i as ^^^ hashTerms T w (i + as.length) bs := by
  induction as generalizing i with
  | nil => simp
  | cons a as ih =>
    rw [List.cons_append, hashTerms_cons, hashTerms_cons, ih, BitVec.xor_assoc]
    rw [List.length_cons, Nat.add_right_comm, Nat.add_assoc]

end Sys2Proof.Machine
end

