-- ==== Sys2Proof/Laws/Memory.lean ====
section
/-! SUPPORT. The laws of BUF: what a read gives after each operation, and that every operation keeps the canonical form
and stays below a bound on the indexes. -/

namespace Sys2Proof.Machine

/-! ### Reads -/

/-- An index below every cell reads as blank. -/
theorem read_of_lt {m : Memory} {j : Nat} (hm : ∀ c ∈ m, j < c.1) : m.read j = Memory.blank := by
  induction m with
  | nil => rfl
  | cons c m ih =>
    have := hm c (by simp)
    simp only [Memory.read, if_neg (Nat.ne_of_gt this)]
    exact ih fun d hd => hm d (by simp [hd])

/-- Reading a memory with a cell put in front. -/
theorem read_cons (k : Nat) (v : Byte) (m : Memory) (j : Nat) (hm : ∀ c ∈ m, k < c.1) :
    (Memory.cons k v m).read j = if j = k then v else m.read j := by
  unfold Memory.cons
  by_cases hv : v = Memory.blank
  · by_cases hj : j = k
    · subst hj; simp [hv, read_of_lt hm]
    · simp [hv, hj]
  · by_cases hj : j = k
    · subst hj; simp [hv, Memory.read]
    · simp [hv, hj, Memory.read, Ne.symm hj]

/-- Read after write, on a memory in canonical form. -/
theorem read_write {m : Memory} (hm : m.wf) (k : Nat) (v : Byte) (j : Nat) :
    (m.write k v).read j = if j = k then v else m.read j := by
  induction m with
  | nil => simpa [Memory.write] using read_cons k v [] j (by simp)
  | cons c m ih =>
    obtain ⟨a, b⟩ := c
    obtain ⟨hp, hb⟩ := hm
    rw [List.pairwise_cons] at hp
    have hm' : Memory.wf m := ⟨hp.2, fun c hc => hb c (by simp [hc])⟩
    rw [Memory.write]
    split
    · next hak =>
      simp only [Memory.read, ih hm']
      by_cases hj : a = j
      · subst hj; simp [Nat.ne_of_lt hak]
      · simp [hj]
    · next hak =>
      split
      · next heq =>
        subst heq
        rw [read_cons _ _ _ _ fun c hc => hp.1 c hc]
        by_cases hj : j = a
        · simp [hj]
        · simp [hj, Memory.read, Ne.symm hj]
      · next hne =>
        rw [read_cons]
        intro c hc
        rcases List.mem_cons.1 hc with rfl | hc
        · simp; omega
        · have := hp.1 c hc; simp at this; omega

/-- Clearing the entries below `w` makes them 0x00 and leaves the others. -/
theorem read_clear (m : Memory) (w j : Nat) :
    (m.clear w).read j = if j < w then Memory.blank else m.read j := by
  induction m with
  | nil => simp [Memory.clear, Memory.read]
  | cons c m ih =>
    obtain ⟨a, b⟩ := c
    rw [Memory.clear] at ih ⊢
    by_cases hw : w ≤ a
    · simp only [List.filter_cons, hw, decide_true, if_true, Memory.read, ih]
      by_cases hj : a = j
      · subst hj; simp [Nat.not_lt.2 hw]
      · simp [hj]
    · simp only [List.filter_cons, hw, decide_false, Memory.read]
      rw [if_neg (by simp), ih]
      by_cases hj : j < w
      · simp [hj]
      · simp [hj, show a ≠ j by omega]

theorem mem_cellsFrom {k : Nat} {bs : List Byte} {c : Host.Cell} (h : c ∈ Memory.cellsFrom k bs) :
    k ≤ c.1 ∧ c.1 < k + bs.length ∧ c.2 ≠ Memory.blank := by
  induction bs generalizing k with
  | nil => simp [Memory.cellsFrom] at h
  | cons b bs ih =>
    have tail : c ∈ Memory.cellsFrom (k + 1) bs → k ≤ c.1 ∧ c.1 < k + (b :: bs).length ∧ c.2 ≠ Memory.blank := by
      intro h
      have := ih h
      simp only [List.length_cons]
      exact ⟨by omega, by omega, this.2.2⟩
    simp only [Memory.cellsFrom, Memory.cons] at h
    split at h
    · exact tail h
    · rcases List.mem_cons.1 h with rfl | h
      · exact ⟨by simp, by simp, by assumption⟩
      · exact tail h

theorem read_cellsFrom_append (k : Nat) (bs : List Byte) (m : Memory) (j : Nat)
    (hm : ∀ c ∈ m, k + bs.length ≤ c.1) :
    (Memory.cellsFrom k bs ++ m).read j =
      if k ≤ j ∧ j < k + bs.length then bs.getD (j - k) 0 else m.read j := by
  induction bs generalizing k with
  | nil => simp [Memory.cellsFrom, show ¬ (k ≤ j ∧ j < k) by omega]
  | cons b bs ih =>
    have hm' : ∀ c ∈ m, k + 1 + bs.length ≤ c.1 := fun c hc => by
      have := hm c hc; simp at this; omega
    have happ : Memory.cellsFrom k (b :: bs) ++ m = Memory.cons k b (Memory.cellsFrom (k + 1) bs ++ m) := by
      simp only [Memory.cellsFrom, Memory.cons]; split <;> rfl
    have hlt : ∀ c ∈ Memory.cellsFrom (k + 1) bs ++ m, k < c.1 := by
      intro c hc
      rcases List.mem_append.1 hc with hc | hc
      · have := mem_cellsFrom hc; omega
      · have := hm' c hc; omega
    rw [happ, read_cons _ _ _ _ hlt, ih (k + 1) hm']
    by_cases hj : j = k
    · subst hj; simp
    · rw [if_neg hj]
      by_cases hr : k + 1 ≤ j ∧ j < k + 1 + bs.length
      · rw [if_pos hr, if_pos (by simp; omega)]
        obtain ⟨d, rfl⟩ : ∃ d, j = k + 1 + d := ⟨j - (k + 1), by omega⟩
        rw [show k + 1 + d - (k + 1) = d by omega, show k + 1 + d - k = d + 1 by omega]
        rfl
      · rw [if_neg hr, if_neg (by simp; omega)]

theorem clear_ge {m : Memory} {w : Nat} {c : Host.Cell} (h : c ∈ m.clear w) : w ≤ c.1 ∧ c ∈ m := by
  simp only [Memory.clear, List.mem_filter, decide_eq_true_eq] at h
  exact ⟨h.2, h.1⟩

/-- Loading a window puts its bytes at the indexes from 0 and leaves the others. -/
theorem read_load (m : Memory) (bs : List Byte) (j : Nat) :
    (m.load bs).read j = if j < bs.length then bs.getD j 0 else m.read j := by
  rw [Memory.load, read_cellsFrom_append _ _ _ _ fun c hc => by simpa using (clear_ge hc).1, read_clear]
  by_cases h : j < bs.length <;> simp [h]

/-! ### The canonical form -/

theorem wf_nil : Memory.wf [] := by simp [Memory.wf]

theorem wf_cons {k : Nat} {v : Byte} {m : Memory} (hm : m.wf) (h : ∀ c ∈ m, k < c.1) :
    (Memory.cons k v m).wf := by
  unfold Memory.cons
  split
  · exact hm
  · next hv =>
    refine ⟨List.pairwise_cons.2 ⟨fun c hc => h c hc, hm.1⟩, fun c hc => ?_⟩
    rcases List.mem_cons.1 hc with rfl | hc
    · exact hv
    · exact hm.2 c hc

theorem mem_write {m : Memory} {k : Nat} {v : Byte} {c : Host.Cell} (h : c ∈ m.write k v) :
    c = (k, v) ∨ c ∈ m := by
  induction m with
  | nil =>
    simp only [Memory.write, Memory.cons] at h
    split at h
    · simp at h
    · left; simpa using h
  | cons d m ih =>
    obtain ⟨a, b⟩ := d
    rw [Memory.write] at h
    split at h
    · rcases List.mem_cons.1 h with rfl | h
      · simp
      · rcases ih h with h | h <;> simp [h]
    · split at h <;> (simp only [Memory.cons] at h; split at h)
      · exact Or.inr (by simp [h])
      · rcases List.mem_cons.1 h with h | h <;> simp [h]
      · exact Or.inr h
      · rcases List.mem_cons.1 h with h | h
        · exact Or.inl h
        · exact Or.inr h

theorem wf_write {m : Memory} (hm : m.wf) (k : Nat) (v : Byte) : (m.write k v).wf := by
  induction m with
  | nil => exact wf_cons wf_nil (by simp)
  | cons d m ih =>
    obtain ⟨a, b⟩ := d
    obtain ⟨hp, hb⟩ := hm
    rw [List.pairwise_cons] at hp
    have hm' : Memory.wf m := ⟨hp.2, fun c hc => hb c (by simp [hc])⟩
    rw [Memory.write]
    split
    · next hak =>
      refine ⟨List.pairwise_cons.2 ⟨fun c hc => ?_, (ih hm').1⟩, fun c hc => ?_⟩
      · rcases mem_write hc with rfl | hc
        · exact hak
        · exact hp.1 c hc
      · rcases List.mem_cons.1 hc with rfl | hc
        · exact hb _ (by simp)
        · exact (ih hm').2 c hc
    · split
      · next heq => subst heq; exact wf_cons hm' fun c hc => hp.1 c hc
      · refine wf_cons ⟨List.pairwise_cons.2 hp, hb⟩ fun c hc => ?_
        rcases List.mem_cons.1 hc with rfl | hc
        · simp; omega
        · have := hp.1 c hc; simp at this; omega

theorem wf_clear {m : Memory} (hm : m.wf) (w : Nat) : (m.clear w).wf :=
  ⟨hm.1.filter _, fun c hc => hm.2 c (clear_ge hc).2⟩

theorem wf_cellsFrom (k : Nat) (bs : List Byte) : (Memory.cellsFrom k bs).wf := by
  induction bs generalizing k with
  | nil => exact wf_nil
  | cons b bs ih => exact wf_cons (ih (k + 1)) fun c hc => by have := mem_cellsFrom hc; omega

theorem wf_load {m : Memory} (hm : m.wf) (bs : List Byte) : (m.load bs).wf := by
  refine ⟨List.pairwise_append.2 ⟨(wf_cellsFrom 0 bs).1, (wf_clear hm _).1, fun c hc d hd => ?_⟩, fun c hc => ?_⟩
  · have := mem_cellsFrom hc
    have := clear_ge hd
    omega
  · rcases List.mem_append.1 hc with hc | hc
    · exact (mem_cellsFrom hc).2.2
    · exact (wf_clear hm _).2 c hc

/-! ### Bounds on the indexes -/

theorem write_lt {m : Memory} {k N : Nat} {v : Byte} (hm : ∀ c ∈ m, c.1 < N) (hk : k < N) :
    ∀ c ∈ m.write k v, c.1 < N := by
  intro c hc
  rcases mem_write hc with rfl | hc
  · exact hk
  · exact hm c hc

theorem clear_lt {m : Memory} {w N : Nat} (hm : ∀ c ∈ m, c.1 < N) : ∀ c ∈ m.clear w, c.1 < N :=
  fun c hc => hm c (clear_ge hc).2

theorem load_lt {m : Memory} {bs : List Byte} {N : Nat} (hm : ∀ c ∈ m, c.1 < N) (hb : bs.length ≤ N) :
    ∀ c ∈ m.load bs, c.1 < N := by
  intro c hc
  rcases List.mem_append.1 hc with hc | hc
  · have := mem_cellsFrom hc; omega
  · exact clear_lt hm c hc

/-- In canonical form, equal reads mean equal memories. -/
theorem eq_of_read {m n : Memory} (hm : m.wf) (hn : n.wf) (h : ∀ j, m.read j = n.read j) : m = n := by
  induction m generalizing n with
  | nil =>
    cases n with
    | nil => rfl
    | cons d n =>
      have := h d.1
      simp [Memory.read] at this
      exact absurd this.symm (hn.2 d (by simp))
  | cons c m ih =>
    cases n with
    | nil =>
      have := h c.1
      simp [Memory.read] at this
      exact absurd this (hm.2 c (by simp))
    | cons d n =>
      obtain ⟨a, b⟩ := c
      obtain ⟨a', b'⟩ := d
      obtain ⟨hmp, hmb⟩ := hm
      obtain ⟨hnp, hnb⟩ := hn
      rw [List.pairwise_cons] at hmp hnp
      have key : ∀ {x y : Nat} {u v : Byte} {p q : Memory}, u ≠ Memory.blank → (∀ c ∈ q, y < c.1) →
          (∀ j, Memory.read ((x, u) :: p) j = Memory.read ((y, v) :: q) j) → y ≤ x := by
        intro x y u v p q hu hq hr
        by_contra hlt
        have := hr x
        rw [read_of_lt (m := (y, v) :: q) (j := x)] at this
        · simp [Memory.read] at this; exact hu this
        · intro c hc
          rcases List.mem_cons.1 hc with rfl | hc
          · simp; omega
          · have := hq c hc; omega
      have haa : a = a' := Nat.le_antisymm
        (key (hnb (a', b') (by simp)) (fun c hc => hmp.1 c hc) fun j => (h j).symm)
        (key (hmb (a, b) (by simp)) (fun c hc => hnp.1 c hc) h)
      subst haa
      have hbb : b = b' := by simpa [Memory.read] using h a
      subst hbb
      congr 1
      refine ih ⟨hmp.2, fun c hc => hmb c (by simp [hc])⟩ ⟨hnp.2, fun c hc => hnb c (by simp [hc])⟩ fun j => ?_
      by_cases hj : a = j
      · subst hj; rw [read_of_lt fun c hc => hmp.1 c hc, read_of_lt fun c hc => hnp.1 c hc]
      · simpa [Memory.read, hj] using h j

end Sys2Proof.Machine
end

