-- ==== Sys2Proof/Laws/PerInstr.lean ====
section
/-! SUPPORT. Facts about every command as syntax, one lemma per constructor. -/

/-- The encoding of a well-formed command starts with a legal word that announces its length (30_encoding.md R67). -/
def Sys2Proof.Laws.FrameLength.Statement (i : Sys2Proof.Instr) : Prop :=
  i.wf = true → ∃ c p, Sys2Proof.encode i = c :: p ∧ Sys2Proof.payloadWordsAfter c = p.length ∧
    ∃ j, Sys2Proof.decodeFrame c p = .ok j

namespace Sys2Proof.Laws.FrameLength

theorem config (wl : Word32) : Statement (.config wl) := fun _ =>
  ⟨_, _, rfl, by simp [payloadWordsAfter_wordOfArg], by simp [decodeFrame]⟩

theorem seed (n : Word32) (payload : List Word64) : Statement (.seed n payload) := fun h =>
  ⟨_, _, rfl, by simp [payloadWordsAfter_wordOfArg]; simpa [Instr.wf] using Eq.symm (by simpa [Instr.wf] using h),
    by simp [decodeFrame]⟩

theorem rotate (leaving entering : Byte) : Statement (.rotate leaving entering) := fun _ =>
  ⟨_, _, rfl, by simp [payloadWordsAfter_wordOfBytes], by simp [decodeFrame]⟩

theorem rotateChecked (leaving entering : Byte) : Statement (.rotateChecked leaving entering) := fun _ =>
  ⟨_, _, rfl, by simp [payloadWordsAfter_wordOfBytes], by simp [decodeFrame]⟩

end Sys2Proof.Laws.FrameLength
end

