-- ==== Sys2Proof/Laws/Ports.lean ====
section
/-! SUPPORT. Selecting an instance, and what a step can do. -/

namespace Sys2Proof.Machine

/-- Selecting an instance rearranges the state and changes nothing in it. -/
theorem select_insts {s t : State} {k : Nat} (h : s.select k = some t) : t.insts = s.insts := by
  unfold State.select at h
  split at h
  · cases h
  · next i hi =>
    cases h
    simp only [State.insts] at hi ⊢
    obtain ⟨hk, rfl⟩ := List.getElem?_eq_some_iff.1 hi
    simp

theorem select_cur {s t : State} {k : Nat} (h : s.select k = some t) : s.insts[k]? = some t.cur := by
  unfold State.select at h
  split at h
  · cases h
  · next i hi => cases h; exact hi

theorem select_fields {s t : State} {k : Nat} (h : s.select k = some t) :
    t.part = s.part ∧ t.rst = s.rst ∧ t.inputs = s.inputs ∧ t.sel = k := by
  unfold State.select at h
  split at h
  · cases h
  · next i hi =>
    cases h
    obtain ⟨hk, -⟩ := List.getElem?_eq_some_iff.1 hi
    refine ⟨rfl, rfl, rfl, ?_⟩
    simp only [State.sel, List.length_take]
    omega

theorem select_eq_none {s : State} {k : Nat} (h : s.select k = none) : s.insts[k]? = none := by
  unfold State.select at h
  split at h
  · assumption
  · cases h

/-- A command is fetched exactly when `rst` is released and the selected port has accepted all its words. -/
theorem fetch_eq_some {s : State} {r : Except Reject Instr} {t : State} (h : s.fetch = some (r, t)) :
    ∃ f, s.rst = false ∧ s.cur.rx = some f ∧ f.missing = 0 ∧ r = decodeFrame f.header f.payload ∧
      t = s.consumed := by
  unfold State.fetch at h
  split at h
  · next f hr hf =>
    split at h
    · next hm => cases h; exact ⟨f, hr, hf, hm, rfl, rfl⟩
    · cases h
  · cases h

theorem fetch_of_rx {s : State} {f : Frame} (hr : s.rst = false) (hf : s.cur.rx = some f) (hm : f.missing = 0) :
    s.fetch = some (decodeFrame f.header f.payload, s.consumed) := by
  simp [State.fetch, hr, hf, hm, State.consumed]

/-- What a step can do: a command, a rejected command, or a host event. -/
theorem step_cases {s t : State} (h : step s = .next t) :
    (∃ f i, s.rst = false ∧ s.cur.rx = some f ∧ f.missing = 0 ∧ decodeFrame f.header f.payload = .ok i ∧
      exec i s.consumed = .next t) ∨
    (∃ f r, s.rst = false ∧ s.cur.rx = some f ∧ f.missing = 0 ∧ decodeFrame f.header f.payload = .error r ∧
      t = s.consumed.raise .eIllegal) ∨
    (s.fetch = none ∧ t = s.hostStep) := by
  unfold step at h
  split at h
  · next i u hu =>
    obtain ⟨f, hr, hf, hm, hd, rfl⟩ := fetch_eq_some hu
    exact Or.inl ⟨f, i, hr, hf, hm, hd.symm, h⟩
  · next r u hu =>
    obtain ⟨f, hr, hf, hm, hd, rfl⟩ := fetch_eq_some hu
    injection h with h
    exact Or.inr (Or.inl ⟨f, r, hr, hf, hm, hd.symm, h.symm⟩)
  · next hu => injection h with h; exact Or.inr (Or.inr ⟨hu, h.symm⟩)

/-- What a host event can do. -/
theorem hostStep_cases (s : State) :
    (s.inputs = [] ∧ s.hostStep = s) ∨
    ∃ ev rest, s.inputs = ev :: rest ∧ s.hostStep = ({ s with inputs := rest } : State).apply ev := by
  unfold State.hostStep
  split
  · next h => exact Or.inl ⟨h, rfl⟩
  · next ev rest h => exact Or.inr ⟨ev, rest, h, rfl⟩

end Sys2Proof.Machine
end

