-- ==== Sys2Proof/Laws/Run.lean ====
section
/-! SUPPORT. Runs of the machine, one step at a time. -/

namespace Sys2Proof.Machine

/-- A run of any machine whose first step goes on. -/
theorem hostRun_next (M : Host.Core) (n : Nat) (s t : M.State) (h : M.step s = .next t) :
    M.run (n + 1) s = M.run n t := by
  rw [Host.Core.run, h]

theorem hostRun_fault (M : Host.Core) (n : Nat) (s : M.State) (r : M.Fault) (h : M.step s = .fault r) :
    M.run (n + 1) s = .fault r := by
  rw [Host.Core.run, h]

theorem hostRun_refused (M : Host.Core) (n : Nat) (s : M.State) (r : M.Refusal) (h : M.step s = .refused r) :
    M.run (n + 1) s = .refused r := by
  rw [Host.Core.run, h]

@[simp] theorem run_zero (s : State) : core.run 0 s = .next s := rfl

/-- A run whose first step goes on. -/
theorem run_succ_of_next {n : Nat} {s t : State} (h : step s = .next t) : core.run (n + 1) s = core.run n t :=
  hostRun_next core n s t h

/-- A run of `n + 1` steps that goes on starts with a step that does. -/
theorem run_succ_cases {n : Nat} {s t : State} (h : core.run (n + 1) s = .next t) :
    ∃ u, step s = .next u ∧ core.run n u = .next t := by
  cases hs : step s with
  | next u => exact ⟨u, rfl, (run_succ_of_next hs).symm.trans h⟩
  | fault r => cases (hostRun_fault core n s r hs).symm.trans h
  | refused r => cases (hostRun_refused core n s r hs).symm.trans h

/-- One step as a run. -/
theorem run_one (s : State) : core.run 1 s = step s := by
  cases hs : step s with
  | next u => exact run_succ_of_next hs
  | fault r => exact hostRun_fault core 0 s r hs
  | refused r => exact hostRun_refused core 0 s r hs

/-- A run of `n + m` steps is `n` steps and then `m`. -/
theorem run_add {n m : Nat} {s t : State} (h : core.run n s = .next t) : core.run (n + m) s = core.run m t := by
  induction n generalizing s with
  | zero =>
    have hs : s = t := by injection (run_zero s).symm.trans h
    rw [hs]
    exact congrArg (fun k => core.run k t) (Nat.zero_add m)
  | succ n ih =>
    obtain ⟨u, hu, hr⟩ := run_succ_cases h
    exact (congrArg (fun k => core.run k s) (Nat.add_right_comm n 1 m)).trans ((run_succ_of_next hu).trans (ih hr))

end Sys2Proof.Machine
end

