-- ==== Sys2Proof/Laws/Window.lean ====
section
/-! SUPPORT. Small laws of the payload bytes and of WIN. -/

namespace Sys2Proof.Machine

@[simp] theorem wordBytes_length (p : Word64) : (wordBytes p).length = 8 := by simp [wordBytes]

@[simp] theorem payloadBytes_nil : payloadBytes [] = [] := rfl

@[simp] theorem payloadBytes_cons (p : Word64) (ps : List Word64) :
    payloadBytes (p :: ps) = wordBytes p ++ payloadBytes ps := by simp [payloadBytes]

/-- Eight bytes a payload word. -/
@[simp] theorem payloadBytes_length (p : List Word64) : (payloadBytes p).length = 8 * p.length := by
  induction p with
  | nil => rfl
  | cons w ws ih => rw [payloadBytes_cons, List.length_append, ih, wordBytes_length, List.length_cons]; omega

theorem seedBytes_length (n : Word32) (p : List Word64) :
    (seedBytes n p).length = min n.toNat (8 * p.length) := by
  simp [seedBytes]

/-- A well-formed SEED has N input bytes. -/
theorem seedBytes_length_wf {n : Word32} {p : List Word64} (h : (Instr.seed n p).wf = true) :
    (seedBytes n p).length = n.toNat := by
  rw [seedBytes_length]
  simp [Instr.wf, payloadWordCount, ceilDiv] at h
  omega

/-- WIN while SEEDED (R27). -/
theorem win_seeded {e : Engine} (h : e.state = .seeded) :
    e.win = (List.range e.wlen.toNat).map fun i => e.buf.read ((e.ptr + i) % e.wlen.toNat) := by
  simp [Engine.win, h]

/-- WIN in the other states (R27). -/
theorem win_unseeded {e : Engine} (h : e.state ≠ .seeded) : e.win = [] := by
  unfold Engine.win
  cases hs : e.state <;> simp_all

theorem win_length {e : Engine} (h : e.state = .seeded) : e.win.length = e.wlen.toNat := by simp [win_seeded h]

theorem win_get {e : Engine} (h : e.state = .seeded) (i : Nat) (hi : i < e.wlen.toNat) :
    e.win[i]? = some (e.buf.read ((e.ptr + i) % e.wlen.toNat)) := by
  simp [win_seeded h, hi]

/-- WIN[0] is BUF[PTR] (R28). -/
theorem win_head {e : Engine} {p : Part} (hi : e.Inv p) (h : e.state = .seeded) :
    e.win.head? = some (e.buf.read e.ptr) := by
  have h1 := (hi.wlen_range (by simp [h])).1
  rw [List.head?_eq_getElem?, win_get h 0 h1, Nat.add_zero, Nat.mod_eq_of_lt (hi.ptr_lt h)]

end Sys2Proof.Machine
end

