-- ==== Sys2Proof/Tests/Slice0.lean ====
section
/-! SUPPORT. Tests. Expected words and hash values are those of spec/95_test_vectors.md (its table T_test); a witness
theorem shows a state and operands that meet the hypotheses of the statement it is named after. -/

namespace Sys2Proof.Tests

set_option Elab.async false

open Sys2Proof Sys2Proof.Machine

/-! ### States to test on -/

/-- T_test (92_eei_decisions.md D31). -/
def tTest : Vector Word32 256 := Vector.ofFn fun b => BitVec.ofNat 32 (0x9E3779B9 * (b.val + 1))

/-- A part with WMAX 999 and RESP_DEPTH 16. -/
def part : Part := { wmax := 999, respDepth := 16, rom := tTest }

/-- An instance with the registers `e`. -/
def instOf (e : Engine) : Inst := { Inst.reset with eng := e }

/-- One instance with the registers `e`. -/
def st (e : Engine) : State := { State.resetOf part 0 with cur := instOf e }

/-- Registers after CONFIG `w`. -/
def unseeded (w : Nat) : Engine := { Engine.reset with state := .unseeded, wlen := BitVec.ofNat 32 w }

/-- SEEDED, WLEN 4, WIN [0, 1, 2, 3], HASH V (W1). -/
def seeded4 : Engine :=
  { state := .seeded, wlen := 4, hash := 0xCD913CB7, buf := [(1, 1), (2, 2), (3, 3)], ptr := 0 }

/-- The same window as after P1: BUF[0..3] = [3, 0, 1, 2], PTR 1. -/
def ring4 : Engine :=
  { state := .seeded, wlen := 4, hash := 0xCD913CB7, buf := [(0, 3), (2, 1), (3, 2)], ptr := 1 }

/-- SEEDED, WLEN 4, WIN [8, 0, 1, 2] (W1). -/
def before4 : Engine :=
  { state := .seeded, wlen := 4, hash := 0xA53C5125, buf := [(0, 8), (2, 1), (3, 2)], ptr := 0 }

/-- SEEDED, WLEN 1, WIN [9] (2.4). -/
def seeded1 : Engine := { state := .seeded, wlen := 1, hash := 0x2E2AC13A, buf := [(0, 9)], ptr := 0 }

/-- SEEDED with a window of `w` zero bytes and the hash `h`. -/
def zeros (w : Nat) (h : Word32) : Engine :=
  { state := .seeded, wlen := BitVec.ofNat 32 w, hash := h, buf := [], ptr := 0 }

/-- The registers and the response words of an outcome. -/
def after : Host.Outcome State Fault Refusal → Option (Engine × List Nat)
  | .next s => some (s.cur.eng, s.cur.resp.map fun r => r.word.toNat)
  | .fault _ => none
  | .refused _ => none

/-- The response words of an outcome. -/
def words (o : Host.Outcome State Fault Refusal) : Option (List Nat) := (after o).map fun a => a.2

/-- The window after an outcome. -/
def winAfter (o : Host.Outcome State Fault Refusal) : Option (List Byte) := (after o).map fun a => a.1.win

/-! ### Well-formedness -/

theorem test_wf_refuses_short_payload : (Instr.seed 9 [0x0807060504030201]).wf = false := by decide
theorem test_wf_refuses_long_payload : (Instr.seed 8 [1, 2]).wf = false := by decide
theorem test_wf_accepts_empty_seed : (Instr.seed 0 []).wf = true := by decide

/-! ### Decoding: words written out bit by bit from R61 to R65 -/

theorem test_decode_config :
    decode [0b0001000000000000000000000000000000000000000000000000000000000100] =
      .ok (.config 4, []) := by decide
theorem test_decode_seed :
    decode [0b0010000000000000000000000000000000000000000000000000000000001001, 0x0807060504030201, 0x0000000000000009] =
      .ok (.seed 9 [0x0807060504030201, 0x0000000000000009], []) := by decide
theorem test_decode_rotate :
    decode [0b0011000000000000000000000000000000000000000000000000001100001000] =
      .ok (.rotate 8 3, []) := by decide
theorem test_decode_rotate_checked :
    decode [0b0100000000000000000000000000000000000000000000000000010000000111] =
      .ok (.rotateChecked 7 4, []) := by decide
theorem test_decode_opcode_five :
    decode [0b0101000000000000000000000000000000000000000000000000000000000000] =
      .error .reservedOpcode := by decide
theorem test_decode_config_rsv :
    decode [0b0001000000000000000000000000000100000000000000000000000000000100] =
      .error .reservedField := by decide
theorem test_decode_rotate_rsvb :
    decode [0b0011000000000000000000000000000000000000000000010000000000000000] =
      .error .reservedField := by decide
theorem test_decode_opcode_fifteen : decode [0xF000000000000000] = .error .reservedOpcode := by decide
theorem test_decode_waits_for_payload : decode [0x2000000000000009, 1] = .error .payloadIncomplete := by decide
theorem test_encode_rotate : encode (.rotate 8 3) = [0x3000000000000308] := by decide
theorem test_table_word : decodeTableWord 64 0x4000000000000905 = some (.rotateChecked 5 9) := by decide
theorem test_table_word_seed : decodeTableWord 64 0x2000000000000009 = some (.seed 9 [0, 0]) := by decide

/-! ### The rotation and the hash (2.1, 2.3) -/

theorem test_rotl32 :
    rotl32 0x80000001 1 = 0x00000003 ∧ rotl32 0x12345678 4 = 0x23456781 ∧ rotl32 0x12345678 31 = 0x091A2B3C ∧
      rotl32 0x12345678 32 = 0x12345678 ∧ rotl32 0x12345678 33 = 0x2468ACF0 := by decide
theorem test_hash_33 : hashOf (tableRead part) 33 ((List.range 33).map (BitVec.ofNat 8)) = 0x42680CD8 := by
  decide +kernel
theorem test_hash_64 :
    hashOf (tableRead part) 64 ((List.range 64).map fun i => BitVec.ofNat 8 (3 * i + 1)) = 0xE245712A := by
  decide +kernel

/-! ### CONFIG (2.2) -/

theorem test_config_discards_seed :
    after (exec (.config 3) (st seeded4)) = some ({ unseeded 3 with buf := [(3, 3)] }, [0x0000000000000000]) := by
  decide +kernel
theorem test_config_limits :
    words (exec (.config 0) (st seeded4)) = some [0x0000000100000000] ∧
      words (exec (.config 999) (st seeded4)) = some [0x0000000000000000] ∧
      after (exec (.config 1000) (st seeded4)) = some (seeded4, [0x0000000100000000]) := by decide +kernel

/-! ### SEED (2.3) -/

theorem test_seed_ignores_padding :
    after (exec (.seed 3 [0xFFFFFFFFFF070605]) (st (unseeded 2))) =
      some ({ state := .seeded, wlen := 2, hash := 0x391DE0A2, buf := [(0, 5), (1, 6)], ptr := 0 },
        [0x00000000391DE0A2]) := by decide +kernel
theorem test_seed_short : after (exec (.seed 2 [0x0605]) (st seeded4)) = some (seeded4, [0x0000000200000000]) := by
  decide +kernel

/-! ### ROTATE (2.4) -/

theorem test_rotate_scenario : after (exec (.rotate 8 3) (st before4)) = some (ring4, [0x00000000CD913CB7]) := by
  decide +kernel
theorem test_rotate_wrong_leaving :
    words (exec (.rotate 7 4) (st seeded4)) = some [0x00000000978BC57D] ∧
      winAfter (exec (.rotate 7 4) (st ring4)) = some [1, 2, 3, 4] := by decide +kernel

/-! ### ROTATE_CHECKED (2.5) -/

theorem test_rotate_checked_mismatch :
    after (exec (.rotateChecked 7 4) (st ring4)) = some (ring4, [0x0000000400000000]) := by decide +kernel
theorem test_rotate_checked_ok :
    words (exec (.rotateChecked 0 4) (st ring4)) = some [0x000000006F40826B] ∧
      winAfter (exec (.rotateChecked 0 4) (st ring4)) = some [1, 2, 3, 4] := by decide +kernel

/-! ### Steps and errors (2.6, P3) -/

theorem test_illegal_before_noconfig :
    words (step ((State.resetOf part 0).withFetchWord 64 0x3000000000010000)) = some [0x0000000500000000] := by
  decide +kernel
theorem test_noconfig :
    words (step ((State.resetOf part 0).withFetchWord 64 0x3000000000000201)) = some [0x0000000600000000] := by
  decide +kernel
theorem test_uninit_before_mismatch :
    words (exec (.rotateChecked 9 9) (st (unseeded 2))) = some [0x0000000300000000] := by decide +kernel
theorem test_step_from_reset :
    (match step (State.reset.withFetchWord 64 0x2000000000000001) with
      | .next s => s.cur.resp.map fun r => r.word.toNat
      | .fault _ => []
      | .refused _ => []) = [0x0000000600000000] := by decide +kernel

/-! ### The assembler (R75) -/

theorem test_assemble_seed :
    assembleLine "SEED 5,6, 0x07 ; three".toList = some [0x2000000000000003, 0x0000000000070605] := by decide +kernel
theorem test_assemble_range :
    assembleLine "ROTATE 8,3".toList = some [0x3000000000000308] ∧ assembleLine "ROTATE 256, 3".toList = none ∧
      assembleLine "CONFIG 4294967296".toList = none ∧
      assembleLine ".word64 0x1000000100000004".toList = some [0x1000000100000004] := by decide +kernel

/-! ### What the witnesses need -/

theorem eng_inv {p : Part} {e : Engine}
    (h : e.buf.wf ∧ (∀ c ∈ e.buf, c.1 < p.wmax) ∧
      (e.state ≠ .unconfigured → 1 ≤ e.wlen.toNat ∧ e.wlen.toNat ≤ p.wmax) ∧ (e.state = .unconfigured → e.wlen = 0) ∧
      (e.state ≠ .seeded → e.hash = 0 ∧ e.ptr = 0) ∧ (e.state = .seeded → e.ptr < e.wlen.toNat)) : e.Inv p :=
  ⟨h.1, h.2.1, h.2.2.1, h.2.2.2.1, h.2.2.2.2.1, h.2.2.2.2.2⟩

theorem reset_inv : Engine.reset.Inv part := eng_inv (by decide)
theorem unseeded4_inv : (unseeded 4).Inv part := eng_inv (by decide)
theorem unseeded1_inv : (unseeded 1).Inv part := eng_inv (by decide)
theorem seeded4_inv : seeded4.Inv part := eng_inv (by decide)
theorem ring4_inv : ring4.Inv part := eng_inv (by decide)
theorem seeded1_inv : seeded1.Inv part := eng_inv (by decide)
theorem zeros32_inv : (zeros 32 0).Inv part := eng_inv (by decide)
theorem zeros33_inv : (zeros 33 0x9E3779B9).Inv part := eng_inv (by decide)

theorem seeded4_consistent : seeded4.Consistent part := by
  show seeded4.state = .seeded → seeded4.hash = hashOf (tableRead part) 4 [0, 1, 2, 3]
  decide +kernel

/-- An idle instance with the registers `e`. -/
theorem inst_inv {e : Engine} (h : e.Inv part) : (instOf e).Inv part :=
  ⟨h, (by intro f hf; cases hf), (by show 0 ≤ 16; decide), fun hn => absurd rfl hn, (by intro r hr; cases hr)⟩

/-- Two idle instances, whatever the hosts do next. -/
def two (a b : Engine) (inputs : List HostEvent) : State :=
  { State.resetOf part 1 with cur := instOf a, above := [instOf b], inputs := inputs }

theorem two_inv {a b : Engine} (ha : a.Inv part) (hb : b.Inv part) (inputs : List HostEvent) : (two a b inputs).Inv where
  part := by show part.Legal; decide
  insts := by
    intro i hi
    have hi : i ∈ [instOf a, instOf b] := hi
    simp only [List.mem_cons, List.not_mem_nil, or_false] at hi
    rcases hi with rfl | rfl
    · exact inst_inv ha
    · exact inst_inv hb
  waiting := by
    intro i hi f hf
    have hi : i ∈ [instOf b] := hi
    rw [List.mem_singleton.1 hi] at hf
    cases hf
  inReset := by intro h; cases h

/-- The command `c`, `p` accepted by an instance with the registers `e`. -/
def holding (e : Engine) (c : Word64) (p : List Word64) : State := (st e).withFrame c p

theorem holds (e : Engine) (c : Word64) (p : List Word64) (h : p.length = payloadWordsAfter c) :
    (holding e c p).Holds c p := ⟨rfl, rfl, h⟩

/-! ### Witnesses: encoding -/

theorem witness_DecodeInvertsEncode :
    (Instr.seed 9 [0x0807060504030201, 9]).wf = true ∧ (Instr.config 0xFFFFFFFF).wf = true ∧
      (Instr.rotate 0xFF 0).wf = true := by decide
theorem witness_EncodeInvertsDecode :
    decode [0x2000000000000008, 7, 0x3000000000000308] = .ok (.seed 8 [7], [0x3000000000000308]) := by decide
theorem witness_OpcodeRowsSelectMnemonic :
    (0x10000000FFFFFFFF : Word64) &&& 0xFFFFFFFF00000000 = 0x1000000000000000 ∧
      decodeFrame 0x10000000FFFFFFFF [] = .ok (.config 0xFFFFFFFF) ∧
      (0x300000000000FFFF : Word64) &&& 0xFFFFFFFFFFFF0000 = 0x3000000000000000 ∧
      decodeFrame 0x300000000000FFFF [] = .ok (.rotate 0xFF 0xFF) ∧
      (0x4000000000010000 : Word64) &&& 0xFFFFFFFFFFFF0000 ≠ 0x4000000000000000 := by decide
/-- One word of each reason to be illegal, and the last legal RSVB. -/
theorem witness_IllegalWordsEndInEIllegal :
    (holding seeded4 0x0000000000000000 []).Holds 0x0000000000000000 [] ∧
      (holding seeded4 0x5000000000000000 []).Holds 0x5000000000000000 [] ∧
      (holding seeded4 0x2000000100000008 [1]).Holds 0x2000000100000008 [1] ∧
      (holding seeded4 0x3000000000010000 []).Holds 0x3000000000010000 [] ∧
      (holding seeded4 0x300000000000FFFF []).Holds 0x300000000000FFFF [] ∧
      (∃ t, step (holding seeded4 0x300000000000FFFF []) = .next t) :=
  ⟨holds _ _ _ (by decide), holds _ _ _ (by decide), holds _ _ _ (by decide), holds _ _ _ (by decide),
    holds _ _ _ (by decide), ⟨_, rfl⟩⟩
theorem witness_CommandLengthFromFirstWord :
    commandLength 0x2000000000000000 = 1 ∧ commandLength 0x2000000000000008 = 2 ∧
      commandLength 0x2000000000000009 = 3 ∧ commandLength 0x3000000000000009 = 1 := by decide
theorem witness_PayloadIsLittleEndian :
    ([0x0807060504030201] : List Word64)[0]? = some 0x0807060504030201 ∧ 7 < 8 ∧
      (payloadBytes [0x0807060504030201])[8 * 0 + 7]? = some 8 ∧
      (Instr.seed 3 [0xFFFFFFFFFF070605]).wf = true ∧ (Instr.seed 3 [0x0000000000070605]).wf = true ∧
      ∀ i, i < (3 : Word32).toNat →
        (payloadBytes [0xFFFFFFFFFF070605])[i]? = (payloadBytes [0x0000000000070605])[i]? := by
  refine ⟨by decide, by decide, by decide, by decide, by decide, ?_⟩
  intro i hi
  have hi : i < 3 := hi
  interval_cases i <;> decide
theorem witness_AssemblerAcceptsExactlyInRange :
    255 < 2 ^ 8 ∧ (assemble (.config 0xFFFFFFFF)).isSome ∧ assemble (.config 0x100000000) = none ∧
      assemble (.rotate 255 0) = some [0x30000000000000FF] ∧ assemble (.rotate 0 256) = none ∧
      assemble (.seed [5, 6, 7]) = some [0x2000000000000003, 0x0000000000070605] ∧ assemble (.seed [5, 256]) = none ∧
      ([5, 6, 7] : List Byte).length < 2 ^ 32 ∧ [5, 6, 7].length ≤ 7 ∧
      7 < (payloadBytes [0x0000000000070605]).length ∧ (payloadBytes [0x0000000000070605])[7]? = some 0 := by decide

/-! ### Witnesses: the hash -/

theorem witness_RotationMovesEachBitLeft : 31 < 32 ∧ (rotl32 0x80000000 1).getLsbD 0 = true := by decide
theorem witness_HashIsXorOfRotatedTerms :
    1 ≤ 33 ∧ (List.replicate 33 (7 : Byte)).length = 33 ∧ 1 ≤ 1 ∧ 0 + 32 * 1 < 33 ∧
      (List.replicate 33 (7 : Byte)).getD 0 0 = (List.replicate 33 (7 : Byte)).getD (0 + 32 * 1) 0 := by decide
theorem witness_RotStepCorrectForOldestByte : ((8 : Byte) :: [0, 1, 2]).length = 4 := by decide

/-! ### Witnesses: the commands -/

/-- WL at each end of both ranges: 0, 1, WMAX and WMAX + 1. -/
theorem witness_ConfigSetsWindowLength :
    (holding seeded4 0x1000000000000004 []).Holds 0x1000000000000004 [] ∧ (0 : Word32).toNat = 0 ∧
      1 ≤ (1 : Word32).toNat ∧ (999 : Word32).toNat ≤ (st seeded4).part.wmax ∧
      (st seeded4).part.wmax < (1000 : Word32).toNat ∧
      words (exec (.config 1) (st seeded4)) = some [0] :=
  ⟨holds _ _ _ (by decide), by decide, by decide, by decide, by decide, by decide +kernel⟩
/-- One state for each clause, N one below WLEN and N equal to WLEN. -/
theorem witness_SeedLoadsWindowAndHash :
    (holding seeded4 0x2000000000000004 [0x03020100]).Holds 0x2000000000000004 [0x03020100] ∧
      (Instr.seed 4 [0x03020100]).wf = true ∧ (Instr.seed 3 [0x020100]).wf = true ∧
      (st Engine.reset).cur.eng.Inv part ∧ (st Engine.reset).cur.eng.state = .unconfigured ∧
      (st (unseeded 4)).cur.eng.Inv part ∧ (st (unseeded 4)).cur.eng.state ≠ .unconfigured ∧
      (3 : Word32).toNat < (unseeded 4).wlen.toNat ∧ (unseeded 4).wlen.toNat ≤ (4 : Word32).toNat ∧
      (st seeded4).cur.eng.Inv part :=
  ⟨holds _ _ _ (by decide), by decide, by decide, reset_inv, rfl, unseeded4_inv, by decide, by decide, by decide,
    seeded4_inv⟩
theorem witness_RotateSlidesWindow :
    (holding seeded4 0x3000000000000308 []).Holds 0x3000000000000308 [] ∧
      (holding seeded4 0x3000000000010000 []).Holds 0x3000000000010000 [] ∧
      (st Engine.reset).cur.eng.Inv part ∧ Engine.reset.state = .unconfigured ∧
      (st (unseeded 4)).cur.eng.Inv part ∧ (unseeded 4).state = .unseeded ∧
      (st ring4).cur.eng.Inv part ∧ ring4.state = .seeded ∧ (st seeded1).cur.eng.Inv part :=
  ⟨holds _ _ _ (by decide), holds _ _ _ (by decide), reset_inv, rfl, unseeded4_inv, rfl, ring4_inv, rfl, seeded1_inv⟩
theorem witness_RotateCheckedVerifiesLeavingByte :
    (holding seeded4 0x4000000000000407 []).Holds 0x4000000000000407 [] ∧
      (holding seeded4 0x4000000000FF0000 []).Holds 0x4000000000FF0000 [] ∧
      (st Engine.reset).cur.eng.Inv part ∧ Engine.reset.state = .unconfigured ∧
      (st (unseeded 4)).cur.eng.Inv part ∧ (unseeded 4).state = .unseeded ∧
      (st ring4).cur.eng.Inv part ∧ ring4.state = .seeded ∧ (0 : Byte) = ring4.win.headD 0 ∧
      (7 : Byte) ≠ ring4.win.headD 0 ∧ (st seeded4).cur.eng.Consistent part :=
  ⟨holds _ _ _ (by decide), holds _ _ _ (by decide), reset_inv, rfl, unseeded4_inv, rfl, ring4_inv, rfl, by decide,
    by decide, seeded4_consistent⟩
theorem witness_RotationKeepsWindowLength :
    (st ring4).cur.eng.Inv part ∧ (st ring4).cur.eng.state = .seeded ∧
      ∃ t, exec (.rotate 7 4) (st ring4) = .next t ∧ (st ring4).Answers t .ok t.cur.eng.hash :=
  ⟨ring4_inv, rfl, _, rfl, rfl⟩
theorem witness_OverlongSeedUsesFirstBytes :
    (Instr.seed 6 [0x050403020100]).wf = true ∧ (Instr.seed 5 [0x0403020100]).wf = true ∧
      (st (unseeded 4)).cur.eng.Inv part ∧ (unseeded 4).state ≠ .unconfigured ∧
      (unseeded 4).wlen.toNat < (5 : Word32).toNat :=
  ⟨by decide, by decide, unseeded4_inv, by decide, by decide⟩
theorem witness_WindowOfLengthOne :
    (st (unseeded 1)).cur.eng.Inv part ∧ (unseeded 1).wlen.toNat = 1 ∧ (unseeded 1).state ≠ .unconfigured ∧
      (st seeded1).cur.eng.Inv part ∧ seeded1.wlen.toNat = 1 ∧ seeded1.state = .seeded ∧ seeded1.win = [9] ∧
      seeded1.hash = tableRead part 9 :=
  ⟨unseeded1_inv, by decide, by decide, seeded1_inv, by decide, rfl, by decide, by decide +kernel⟩
theorem witness_CancelAmountIsModulo32 :
    (st (zeros 32 0)).cur.eng.Inv part ∧ (zeros 32 0).state = .seeded ∧ (zeros 32 0).wlen.toNat % 32 = 0 ∧
      (st (zeros 33 0x9E3779B9)).cur.eng.Inv part ∧ (zeros 33 0x9E3779B9).wlen.toNat = 33 :=
  ⟨zeros32_inv, rfl, by decide, zeros33_inv, by decide⟩
theorem witness_WrongLeavingByteGivesExactDiscrepancy :
    (st seeded4).cur.eng.Inv part ∧ (st seeded4).cur.eng.state = .seeded ∧ (st seeded4).cur.eng.Consistent part ∧
      seeded4.win.head? = some 0 ∧ (7 : Byte) ≠ 0 ∧
      ∃ t u, exec (.rotate 7 4) (st seeded4) = .next t ∧ exec (.seed 4 [0x03020100]) t = .next u ∧
        t.Answers u .ok u.cur.eng.hash :=
  ⟨seeded4_inv, rfl, seeded4_consistent, by decide, by decide, _, _, rfl, rfl, rfl⟩
theorem witness_RollingEqualsHashingDirectly :
    (st seeded4).part.Legal ∧ (st seeded4).cur.eng.Inv part ∧ 1 ≤ 4 ∧ 4 ≤ (st seeded4).part.wmax ∧
      3 + 4 ≤ ([0, 1, 2, 3, 4, 5, 6] : List Byte).length ∧ 0 + 7 ≤ ([0, 1, 2, 3, 4, 5, 6] : List Byte).length :=
  ⟨(by show part.Legal; decide), seeded4_inv, by decide, by decide, by decide, by decide⟩

theorem witness_RotationMayKeepHash : (st seeded4).cur.eng.Inv part ∧ (st seeded4).cur.eng.state = .seeded :=
  ⟨seeded4_inv, rfl⟩

/-! ### Witnesses: errors and responses -/

/-- One case for each of the five errors and one success. -/
theorem witness_ErrorsExactlyOnTheirCauses :
    ((st seeded4).cur.eng.Inv part ∧
      (∃ t, exec (.config 1000) (st seeded4) = .next t ∧ (st seeded4).Answers t .eConfig 0) ∧
      (∃ t, exec (.seed 3 [0]) (st seeded4) = .next t ∧ (st seeded4).Answers t .eShort 0) ∧
      (∃ t, exec (.rotateChecked 7 4) (st seeded4) = .next t ∧ (st seeded4).Answers t .eMismatch 0) ∧
      ∃ t, exec (.rotate 0 4) (st seeded4) = .next t ∧ (st seeded4).Answers t .ok t.cur.eng.hash) ∧
    ((st (unseeded 4)).cur.eng.Inv part ∧
      ∃ t, exec (.rotate 1 2) (st (unseeded 4)) = .next t ∧ (st (unseeded 4)).Answers t .eUninit 0) ∧
    (st Engine.reset).cur.eng.Inv part ∧
      ∃ t, exec (.seed 1 [1]) (st Engine.reset) = .next t ∧ (st Engine.reset).Answers t .eNoConfig 0 :=
  ⟨⟨seeded4_inv, ⟨_, rfl, rfl⟩, ⟨_, rfl, rfl⟩, ⟨_, rfl, rfl⟩, ⟨_, rfl, rfl⟩⟩, ⟨unseeded4_inv, _, rfl, rfl⟩,
    reset_inv, _, rfl, rfl⟩
theorem witness_ErrorsWriteNoState :
    (holding seeded4 0x2000000000000003 [0]).Holds 0x2000000000000003 [0] ∧
      ∃ t, step (holding seeded4 0x2000000000000003 [0]) = .next t ∧
        (holding seeded4 0x2000000000000003 [0]).Answers t .eShort 0 ∧ Status.eShort ≠ .ok :=
  ⟨holds _ _ _ (by decide), _, rfl, rfl, by decide⟩
/-- A word for each row of the priority table. -/
theorem witness_FirstApplicableErrorIsReported :
    ((holding Engine.reset 0x3000000000010000 []).Holds 0x3000000000010000 [] ∧
      (holding Engine.reset 0x4000000000000909 []).Holds 0x4000000000000909 [] ∧
      (holding Engine.reset 0x1000000000000000 []).Holds 0x1000000000000000 []) ∧
    (holding (unseeded 4) 0x4000000000000909 []).Holds 0x4000000000000909 [] ∧
    (holding seeded4 0x2000000000000003 [0]).Holds 0x2000000000000003 [0] ∧
    (holding seeded4 0x4000000000000407 []).Holds 0x4000000000000407 [] ∧
    (holding seeded4 0x4000000000000400 []).Holds 0x4000000000000400 [] ∧
    Engine.reset.Inv part ∧ (unseeded 4).Inv part ∧ seeded4.Inv part :=
  ⟨⟨holds _ _ _ (by decide), holds _ _ _ (by decide), holds _ _ _ (by decide)⟩, holds _ _ _ (by decide),
    holds _ _ _ (by decide), holds _ _ _ (by decide), holds _ _ _ (by decide), reset_inv, unseeded4_inv, seeded4_inv⟩
theorem witness_EveryCommandAnswersOnce :
    (holding seeded4 0x1000000000000004 []).Holds 0x1000000000000004 [] ∧
      (holding seeded4 0x3000000000000400 []).Holds 0x3000000000000400 [] ∧
      (holding seeded4 0x0000000000000000 []).Holds 0x0000000000000000 [] ∧ seeded4.Inv part :=
  ⟨holds _ _ _ (by decide), holds _ _ _ (by decide), holds _ _ _ (by decide), seeded4_inv⟩
theorem witness_FailedCommandIsTransparent :
    ∃ t u, exec (.config 0) (st seeded4) = .next t ∧ (st seeded4).Answers t .eConfig 0 ∧ Status.eConfig ≠ .ok ∧
      exec (.rotate 0 4) (st seeded4) = .next u :=
  ⟨_, _, rfl, rfl, by decide, rfl⟩
/-- PTR at WMAX, a payload one word short, and WLEN one above WMAX: states and terms that no run reaches. -/
theorem witness_IndexOutsideBufferFaults :
    ({ seeded4 with ptr := 999 } : Engine).state = .seeded ∧
      (st seeded4).part.wmax ≤ ({ seeded4 with ptr := 999 } : Engine).ptr ∧
      (unseeded 9).state ≠ .unconfigured ∧ (unseeded 9).wlen.toNat ≤ (9 : Word32).toNat ∧
      8 * ([0] : List Word64).length < (unseeded 9).wlen.toNat ∧
      (unseeded 1000).wlen.toNat ≤ (1000 : Word32).toNat ∧
      (unseeded 1000).wlen.toNat ≤ 8 * (List.replicate 125 (0 : Word64)).length ∧
      (st (unseeded 1000)).part.wmax ≤ (unseeded 1000).wlen.toNat - 1 := by decide +kernel

/-! ### Witnesses: registers over all commands -/

theorem witness_OnlyConfigWritesWlen :
    (∃ t, exec (.config 999) (st seeded4) = .next t ∧ (st seeded4).Answers t .ok 0) ∧
      (∀ wl, Instr.rotate 0 4 ≠ .config wl) ∧ ∃ t, exec (.rotate 0 4) (st seeded4) = .next t :=
  ⟨⟨_, rfl, rfl⟩, (by intro wl h; cases h), _, rfl⟩
theorem witness_StateMovesOnlyAsListed :
    (∃ t, exec (.config 3) (st seeded4) = .next t ∧ (st seeded4).Answers t .ok 0) ∧
      (∃ t, exec (.seed 4 [0x03020100]) (st (unseeded 4)) = .next t ∧
        (st (unseeded 4)).Answers t .ok t.cur.eng.hash) ∧
      (∃ t, exec (.rotate 0 4) (st seeded4) = .next t ∧ (st seeded4).Answers t .ok t.cur.eng.hash) ∧
      ∃ t, exec (.rotate 0 4) (st (unseeded 4)) = .next t ∧ (st (unseeded 4)).Answers t .eUninit 0 :=
  ⟨⟨_, rfl, rfl⟩, ⟨_, rfl, rfl⟩, ⟨_, rfl, rfl⟩, _, rfl, rfl⟩
/-- Two histories, and two inputs of different lengths that agree in their first WLEN bytes. -/
theorem witness_SeedForgetsHistory :
    (st ring4).cur.eng.Inv part ∧ (st (unseeded 4)).cur.eng.Inv part ∧ (Instr.seed 4 [0x03020100]).wf = true ∧
      (Instr.seed 6 [0x050403020100]).wf = true ∧ (st ring4).part.rom = (st (unseeded 4)).part.rom ∧
      ring4.wlen = (unseeded 4).wlen ∧
      (seedBytes 4 [0x03020100]).take ring4.wlen.toNat = (seedBytes 6 [0x050403020100]).take ring4.wlen.toNat ∧
      (∃ t, exec (.seed 4 [0x03020100]) (st ring4) = .next t ∧ (st ring4).Answers t .ok t.cur.eng.hash) ∧
      ∃ t, exec (.seed 6 [0x050403020100]) (st (unseeded 4)) = .next t ∧
        (st (unseeded 4)).Answers t .ok t.cur.eng.hash :=
  ⟨ring4_inv, unseeded4_inv, by decide, by decide, rfl, by decide, by decide, ⟨_, rfl, rfl⟩, _, rfl, rfl⟩
theorem witness_SeedRepeatsItself : ∃ t, exec (.seed 4 [0x03020100]) (st ring4) = .next t := ⟨_, rfl⟩
/-- The same view with another PTR and another BUF. -/
theorem witness_HiddenStateStaysHidden :
    (Instr.rotateChecked 0 4).wf = true ∧ (st seeded4).cur.eng.Inv part ∧ (st ring4).cur.eng.Inv part ∧
      (st seeded4).part = (st ring4).part ∧ (st seeded4).cur.owner = (st ring4).cur.owner ∧
      seeded4.SameView ring4 ∧ seeded4.ptr ≠ ring4.ptr :=
  ⟨by decide, seeded4_inv, ring4_inv, rfl, rfl, ⟨rfl, rfl, rfl, by decide⟩, by decide⟩

/-! ### Witnesses: instances and the table -/

theorem witness_CommandTouchesOwnInstanceOnly :
    (st seeded4).part = (two seeded4 (unseeded 4) [.take 0 0]).part ∧
      (st seeded4).cur = (two seeded4 (unseeded 4) [.take 0 0]).cur ∧
      (∃ t, exec (.rotate 0 4) (st seeded4) = .next t) ∧
      ∃ f, exec (.rotate 0 4) (st { seeded4 with ptr := 999 }) = .fault f :=
  ⟨rfl, rfl, ⟨_, rfl⟩, _, rfl⟩
theorem witness_InstancesCommute :
    (two seeded4 (unseeded 4) []).Inv ∧ (Instr.rotate 0 4).wf = true ∧ (Instr.seed 4 [0x03020100]).wf = true ∧
      0 ≠ 1 ∧ 0 < (two seeded4 (unseeded 4) []).insts.length ∧ 1 < (two seeded4 (unseeded 4) []).insts.length :=
  ⟨two_inv seeded4_inv unseeded4_inv _, by decide, by decide, by decide, by decide, by decide⟩
theorem witness_NothingWritesTableRom :
    (∃ t, step (holding seeded4 0x3000000000000400 []) = .next t) ∧
      ∃ t, step (two seeded4 (unseeded 4) [.rst true]) = .next t := ⟨⟨_, rfl⟩, _, rfl⟩

/-! ### Witnesses: steps, ports, hosts and reset -/

theorem witness_StepRunsDecodedCommand :
    (holding seeded4 0x2000000000000004 [0x03020100]).Holds 0x2000000000000004 [0x03020100] ∧
      decodeFrame 0x2000000000000004 [0x03020100] = .ok (.seed 4 [0x03020100]) ∧
      (Instr.seed 4 [0x03020100]).wf = true ∧ encode (.seed 4 [0x03020100]) = [0x2000000000000004, 0x03020100] :=
  ⟨holds _ _ _ (by decide), by decide, by decide, by decide⟩
theorem witness_FetchWordRunsNext : decodeTableWord 64 0x2000000000000001 = some (.seed 1 [0]) := by decide
/-- A host sends a SEED to instance 1 while instance 0 is selected, and RESP_DEPTH is not reached. -/
theorem witness_SentCommandExecutesOnce :
    (Instr.seed 4 [0x03020100]).wf = true ∧
      ∃ s t, s = two seeded4 (unseeded 4) ((encode (.seed 4 [0x03020100])).map (HostEvent.send 7 1) ++ [.take 7 1]) ∧
        s.rst = false ∧ s.fetch = none ∧ s.select 1 = some t ∧ t.cur.rx = none ∧
        t.cur.resp.length < s.part.respDepth ∧
        s.inputs = (encode (.seed 4 [0x03020100])).map (HostEvent.send 7 1) ++ [.take 7 1] :=
  ⟨by decide, _, _, rfl, rfl, rfl, rfl, rfl, (by show 0 < 16; decide), rfl⟩

/-- An instance on which `n` responses wait. -/
def waiting (n : Nat) : State :=
  { st seeded4 with cur := { instOf seeded4 with resp := List.replicate n { host := 0, word := responseWord .ok 0 } } }

/-- One response below RESP_DEPTH, and RESP_DEPTH of them. -/
theorem witness_HeaderAcceptedExactlyWhenRoom :
    ((waiting 15).rst = false ∧ (waiting 15).cur.rx = none ∧ (waiting 15).cur.resp.length < (waiting 15).part.respDepth) ∧
      (waiting 16).rst = false ∧ (waiting 16).cur.rx = none ∧
      (waiting 16).part.respDepth ≤ (waiting 16).cur.resp.length := by decide
/-- Host 1 while host 0's SEED is being accepted, a command that completes, and a response of host 0. -/
theorem witness_PortKeepsHostsApart :
    ((st seeded4).offer 0 0x2000000000000004).cur.rx =
        some { header := 0x2000000000000004, payload := [], missing := 1 } ∧
      1 ≠ ((st seeded4).offer 0 0x2000000000000004).cur.owner ∧
      (∃ t, exec (.config 4) (st seeded4) = .next t) ∧
      (waiting 1).cur.resp = [{ host := 0, word := responseWord .ok 0 }] :=
  ⟨by decide +kernel, by decide +kernel, ⟨_, rfl⟩, rfl⟩
theorem witness_ResponsesKeepCommandOrder :
    (∃ t, step (holding seeded4 0x3000000000000400 []) = .next t) ∧
      (holding seeded4 0x3000000000000400 []).fetch ≠ none ∧
      (∃ t, step (two seeded4 (unseeded 4) [.take 0 0]) = .next t) ∧
      (two seeded4 (unseeded 4) [.take 0 0]).inputs.head? ≠ some (.rst true) ∧
      (two seeded4 (unseeded 4) [.take 0 0]).insts[1]? = some (instOf (unseeded 4)) :=
  ⟨⟨_, rfl⟩, by simp [holding, State.fetch, State.withFrame], ⟨_, rfl⟩, by decide, rfl⟩
/-- A state for each clause: `rst` asserted over a half accepted SEED, a word offered under reset, release, and after it. -/
theorem witness_ResetEventResetsEveryInstance :
    (∃ s, s = { (st seeded4).offer 0 0x2000000000000004 with inputs := [.rst true] } ∧ s.fetch = none ∧
      s.inputs = .rst true :: []) ∧
    (∃ s, s = { State.resetOf part 1 with rst := true, inputs := [.send 0 1 0x1000000000000004] } ∧ s.fetch = none ∧
      s.rst = true ∧ s.inputs = .send 0 1 0x1000000000000004 :: [] ∧ s.Inv) ∧
    (∃ s, s = { State.resetOf part 1 with rst := true, inputs := [.rst false] } ∧ s.fetch = none ∧
      s.inputs = .rst false :: []) ∧
    (State.resetOf part 1).rst = false ∧ (State.resetOf part 1).cur = Inst.reset ∧ (State.resetOf part 1).part.Legal := by
  refine ⟨⟨_, rfl, by rfl, rfl⟩, ⟨_, rfl, rfl, rfl, rfl, ?_⟩, ⟨_, rfl, rfl, rfl⟩, rfl, rfl, (by show part.Legal; decide)⟩
  have h := two_inv reset_inv reset_inv []
  refine ⟨h.part, h.insts, h.waiting, ?_⟩
  intro _ i hi
  have hi : i ∈ [Inst.reset, Inst.reset] := hi
  simpa using hi
theorem witness_IdleHardwareHoldsState :
    (two seeded4 (unseeded 4) []).fetch = none ∧ (two seeded4 (unseeded 4) []).inputs = [] := ⟨rfl, rfl⟩

/-! ### Witnesses: headlines -/

/-- The least and the largest WMAX. -/
theorem witness_ResetMeetsInvariant :
    Part.Legal { part with wmax := 1, respDepth := 1 } ∧ Part.Legal { part with wmax := 2 ^ 32 - 1 } := by decide
theorem witness_StepKeepsInvariant :
    (two seeded4 (unseeded 4) [.send 7 1 0x2000000000000004]).Inv ∧
      ∃ t, step (two seeded4 (unseeded 4) [.send 7 1 0x2000000000000004]) = .next t :=
  ⟨two_inv seeded4_inv unseeded4_inv _, _, rfl⟩
theorem witness_EngineNeverStops :
    (two seeded4 (unseeded 4) [.send 7 1 0x2000000000000004, .take 0 0, .rst true]).Inv :=
  two_inv seeded4_inv unseeded4_inv _
/-- Two instances, one seeded with its hash right, and a host that sends ROTATE with the right leaving byte. -/
theorem witness_HashStaysConsistentWithWindow :
    ∃ s t : State, s = two seeded4 (unseeded 4) [.send 0 0 0x3000000000000400] ∧ s.Inv ∧ s.Consistent ∧
      (∀ k u, k < 2 → core.run k s = .next u → u.KeepsContract) ∧ core.run 2 s = .next t := by
  refine ⟨_, _, rfl, two_inv seeded4_inv unseeded4_inv _, ?_, ?_, rfl⟩
  · intro i hi
    have hi : i ∈ [instOf seeded4, instOf (unseeded 4)] := hi
    simp only [List.mem_cons, List.not_mem_nil, or_false] at hi
    rcases hi with rfl | rfl
    · exact seeded4_consistent
    · intro h; cases h
  · intro k u hk hr l e t hf hs
    interval_cases k
    · have hr : Host.Outcome.next _ = Host.Outcome.next u := hr
      injection hr with hr
      subst hr
      cases hf
    · have hr : Host.Outcome.next _ = Host.Outcome.next u := hr
      injection hr with hr
      subst hr
      have hf : some (Except.ok (Instr.rotate 0 4), _) = some (Except.ok (Instr.rotate l e), t) := hf
      injection hf with hf
      injection hf with hf _
      injection hf with hf
      injection hf with hf _
      subst hf
      decide
/-- A response is taken from instance 0, and instance 1's registers are looked at too; a command executes on instance 0. -/
theorem witness_RegistersMoveOnlyByCommandOrReset :
    (∃ s t, s = two seeded4 (unseeded 4) [.take 0 0] ∧ step s = .next t ∧ s.insts[0]? = some (instOf seeded4) ∧
      s.insts[1]? = some (instOf (unseeded 4)) ∧ ¬ (s.fetch ≠ none ∧ 0 = s.sel) ∧ s.inputs.head? ≠ some (.rst true)) ∧
    ∃ s t, s = (two seeded4 (unseeded 4) []).withFrame 0x3000000000000400 [] ∧ step s = .next t ∧
      s.insts[1]? = some (instOf (unseeded 4)) ∧ s.fetch ≠ none ∧ ¬ (s.fetch ≠ none ∧ 1 = s.sel) :=
  ⟨⟨_, _, rfl, rfl, rfl, rfl, fun h => h.1 rfl, by decide⟩, _, _, rfl, rfl, rfl,
    by simp [two, State.fetch, State.withFrame], fun h => absurd h.2 (by decide)⟩

end Sys2Proof.Tests
end

section
/-! PROOFS. The rotation (00_scope.md R12): which bit each bit of a rotated word was, and the laws that follow. -/

namespace Sys2Proof.Machine

/-- Where a bit of a rotated word comes from: `k % 32` places below it, going round. The laws of composition
and of exclusive-or below are read off this one, bit by bit. -/
theorem getLsbD_rotl32 (x : Word32) (k : Nat) {i : Nat} (hi : i < 32) :
    (rotl32 x k).getLsbD i = x.getLsbD ((i + (32 - k % 32)) % 32) := by
  rw [rotl32_eq_rotateLeft, BitVec.getLsbD_rotateLeft]
  by_cases hlow : i < k % 32
  · have hsrc : (i + (32 - k % 32)) % 32 = 32 - k % 32 + i := by omega
    simp [hlow, hsrc]
  · have hsrc : (i + (32 - k % 32)) % 32 = i - k % 32 := by omega
    simp [hlow, hsrc, hi]

/-- Where a bit goes (R12): `k % 32` places up, going round. -/
theorem getLsbD_rotl32_moved (x : Word32) (k : Nat) {i : Nat} (hi : i < 32) :
    (rotl32 x k).getLsbD ((i + k % 32) % 32) = x.getLsbD i := by
  have hback : ((i + k % 32) % 32 + (32 - k % 32)) % 32 = i := by omega
  rw [getLsbD_rotl32 x k (Nat.mod_lt _ (by decide)), hback]

/-- The formula of R12, on the numbers the words stand for. -/
theorem toNat_rotl32 (x : Word32) (k : Nat) :
    (rotl32 x k).toNat =
      if k % 32 = 0 then x.toNat else ((x.toNat <<< (k % 32)) ||| (x.toNat >>> (32 - k % 32))) % 2 ^ 32 := by
  rw [rotl32]
  split
  · rfl
  · have hright : x.toNat >>> (32 - k % 32) < 2 ^ 32 := (Nat.shiftRight_le _ _).trans_lt x.isLt
    rw [BitVec.toNat_or, BitVec.toNat_shiftLeft, BitVec.toNat_ushiftRight, Nat.or_mod_two_pow,
      Nat.mod_eq_of_lt hright]

theorem rotl32_of_mod_eq_zero (x : Word32) {k : Nat} (hk : k % 32 = 0) : rotl32 x k = x := if_pos hk

theorem rotl32_rotl32 (x : Word32) (a b : Nat) : rotl32 (rotl32 x a) b = rotl32 x (a + b) := by
  refine BitVec.eq_of_getLsbD_eq fun i hi => ?_
  have hsrc : ((i + (32 - b % 32)) % 32 + (32 - a % 32)) % 32 = (i + (32 - (a + b) % 32)) % 32 := by omega
  rw [getLsbD_rotl32 _ b hi, getLsbD_rotl32 x a (Nat.mod_lt _ (by decide)), hsrc, getLsbD_rotl32 x _ hi]

theorem rotl32_xor (x y : Word32) (k : Nat) : rotl32 (x ^^^ y) k = rotl32 x k ^^^ rotl32 y k := by
  refine BitVec.eq_of_getLsbD_eq fun i hi => ?_
  simp only [BitVec.getLsbD_xor, getLsbD_rotl32 _ k hi]

/-- Settles O10, clause by clause, from where each bit comes from. -/
theorem rotationMovesEachBitLeft : Obligations.RotationMovesEachBitLeft := fun x y k =>
  ⟨toNat_rotl32 x k, fun _ hi => getLsbD_rotl32_moved x k hi, rotl32_of_mod_eq_zero x rfl,
    rotl32_of_mod_eq_zero x rfl, rotl32_rotl32 x, rotl32_xor x y k⟩

end Sys2Proof.Machine
end

section
/-! PROOFS. WIN after the register writes of a command (41_seed.md R86, 42_rotate.md R96), and each meaning as an
equation, branch by branch. -/

namespace Sys2Proof.Machine

/-! ### WIN after a SEED and after a rotation -/

/-- Going on round the ring by less than one turn does not come back. -/
theorem ring_index_ne {ptr w d : Nat} (hptr : ptr < w) (hpos : 0 < d) (hd : d < w) : (ptr + d) % w ≠ ptr := by
  by_cases hwrap : ptr + d < w
  · rw [Nat.mod_eq_of_lt hwrap]; omega
  · rw [Nat.mod_eq_sub_mod (by omega), Nat.mod_eq_of_lt (by omega)]; omega

theorem win_getElem {e : Engine} (hs : e.state = .seeded) (i : Nat) (hi : i < e.win.length) :
    e.win[i] = e.buf.read ((e.ptr + i) % e.wlen.toNat) := by
  simp [win_seeded hs]

/-- After a SEED the window is the bytes loaded. -/
theorem win_loaded (e : Engine) (T : Byte → Word32) {win : List Byte} (hlen : win.length = e.wlen.toNat) :
    (e.loaded T win).win = win := by
  refine List.ext_getElem (by rw [win_length rfl, loaded_wlen, hlen]) fun i _ hi => ?_
  have hmod : (0 + i) % e.wlen.toNat = i := by rw [Nat.zero_add, Nat.mod_eq_of_lt (hlen ▸ hi)]
  rw [win_getElem rfl, loaded_ptr, loaded_wlen, hmod, loaded_buf, read_load, if_pos hi, List.getD_eq_getElem _ _ hi]

/-- After a rotation the window has lost its oldest byte and gained the entering one. -/
theorem win_rotated {p : Part} {e : Engine} (hinv : e.Inv p) (hs : e.state = .seeded) (T : Byte → Word32) (l b : Byte) :
    (e.rotated T l b).win = e.win.tail ++ [b] := by
  have hw := (hinv.wlen_range (by simp [hs])).1
  have hptr := hinv.ptr_lt hs
  have hs' : (e.rotated T l b).state = .seeded := hs
  have htail : e.win.tail.length = e.wlen.toNat - 1 := by rw [List.length_tail, win_length hs]
  have hlen : (e.rotated T l b).win.length = (e.win.tail ++ [b]).length := by
    rw [List.length_append, htail, win_length hs', rotated_wlen, List.length_singleton]
    omega
  refine List.ext_getElem hlen fun i hi _ => ?_
  have hindex : ((e.ptr + 1) % e.wlen.toNat + i) % e.wlen.toNat = (e.ptr + (i + 1)) % e.wlen.toNat := by
    rw [Nat.mod_add_mod, Nat.add_assoc, Nat.add_comm 1]
  rw [win_length hs', rotated_wlen] at hi
  rw [win_getElem hs', rotated_ptr, rotated_wlen, hindex, rotated_buf, read_write hinv.buf_wf]
  by_cases hnewest : i + 1 = e.wlen.toNat
  · rw [if_pos (by rw [hnewest, Nat.add_mod_right, Nat.mod_eq_of_lt hptr]), List.getElem_append_right (by omega)]
    simp
  · rw [if_neg (ring_index_ne hptr (Nat.succ_pos i) (by omega)), List.getElem_append_left (by omega),
      List.getElem_tail, win_getElem hs]

/-! ### The meanings, branch by branch -/

section
variable {s : State} {n : Word32} {payload : List Word64} (l e : Byte)

theorem execSeed_unconfigured (h : s.cur.eng.state = .unconfigured) :
    execSeed n payload s = .next (s.raise .eNoConfig) := if_pos h

theorem execSeed_short (h : s.cur.eng.state ≠ .unconfigured) (hn : n.toNat < s.cur.eng.wlen.toNat) :
    execSeed n payload s = .next (s.raise .eShort) := by
  rw [execSeed, if_neg h, if_pos hn]

/-- A SEED with enough bytes loads the first WLEN of them (R86, R87). -/
theorem execSeed_enough (hinv : s.cur.eng.Inv s.part) (hwf : (Instr.seed n payload).wf = true)
    (h : s.cur.eng.state ≠ .unconfigured) (hn : s.cur.eng.wlen.toNat ≤ n.toNat) :
    execSeed n payload s = .next
      (s.complete (s.cur.eng.loaded (tableRead s.part) ((seedBytes n payload).take s.cur.eng.wlen.toNat))
        (hashOf (tableRead s.part) s.cur.eng.wlen.toNat ((seedBytes n payload).take s.cur.eng.wlen.toNat))) := by
  obtain ⟨hw, hmax⟩ := hinv.wlen_range h
  rw [execSeed, if_neg h, if_neg (by omega), seedBytes_length_wf hwf, if_neg (by omega)]
  exact withBufIndex_of_lt (by omega)

theorem execRotate_unconfigured (h : s.cur.eng.state = .unconfigured) :
    execRotate l e s = .next (s.raise .eNoConfig) := by simp [execRotate, h]

theorem execRotate_unseeded (h : s.cur.eng.state = .unseeded) :
    execRotate l e s = .next (s.raise .eUninit) := by simp [execRotate, h]

theorem execRotateChecked_unconfigured (h : s.cur.eng.state = .unconfigured) :
    execRotateChecked l e s = .next (s.raise .eNoConfig) := by simp [execRotateChecked, h]

theorem execRotateChecked_unseeded (h : s.cur.eng.state = .unseeded) :
    execRotateChecked l e s = .next (s.raise .eUninit) := by simp [execRotateChecked, h]

/-- While SEEDED, PTR is an index of BUF (R28, R43). -/
theorem ptr_lt_wmax {p : Part} {g : Engine} (hinv : g.Inv p) (h : g.state = .seeded) : g.ptr < p.wmax :=
  (hinv.ptr_lt h).trans_le (hinv.wlen_range (by simp [h])).2

theorem execRotate_seeded (hinv : s.cur.eng.Inv s.part) (h : s.cur.eng.state = .seeded) :
    execRotate l e s = .next (slideWindow l e s) := by
  simp [execRotate, h, withBufIndex_of_lt (ptr_lt_wmax hinv h)]

theorem execRotateChecked_seeded (hinv : s.cur.eng.Inv s.part) (h : s.cur.eng.state = .seeded) :
    execRotateChecked l e s = .next
      (if l = s.cur.eng.buf.read s.cur.eng.ptr then slideWindow l e s else s.raise .eMismatch) := by
  simp [execRotateChecked, h, withBufIndex_of_lt (ptr_lt_wmax hinv h)]

end

end Sys2Proof.Machine
end

section
/-! PROOFS. What no observation shows stays hidden (10_state.md R27, R28, R33). Two instances that look alike are in
the same branch of every meaning; each branch then writes registers that look alike. -/

namespace Sys2Proof.Machine

/-- The selected instances of `s` and `s'` look alike, and a response of theirs goes to the same host. -/
structure State.LookAlike (s s' : State) : Prop where
  inv : s.cur.eng.Inv s.part
  inv' : s'.cur.eng.Inv s'.part
  part : s.part = s'.part
  owner : s.cur.owner = s'.cur.owner
  view : s.cur.eng.SameView s'.cur.eng

/-- From `s` and `s'` the outcomes `o` and `o'` are completions with the same response, and the registers look alike
again. -/
def AnswerAlike (s s' : State) (o o' : Host.Outcome State Fault Refusal) : Prop :=
  ∃ t t' r, o = .next t ∧ o' = .next t' ∧ t.cur.resp = s.cur.resp ++ [r] ∧ t'.cur.resp = s'.cur.resp ++ [r] ∧
    t.cur.eng.SameView t'.cur.eng

section
variable {s s' : State} (hs : s.LookAlike s')
include hs

theorem raise_alike (st : Status) : AnswerAlike s s' (.next (s.raise st)) (.next (s'.raise st)) :=
  ⟨_, _, _, rfl, rfl, raise_resp s st, by rw [raise_resp, hs.owner], hs.view⟩

theorem complete_alike {e e' : Engine} (he : e.SameView e') (data : Word32) :
    AnswerAlike s s' (.next (s.complete e data)) (.next (s'.complete e' data)) :=
  ⟨_, _, _, rfl, rfl, complete_resp s e data, by rw [complete_resp, hs.owner], he⟩

/-- The byte the window loses next is part of the view, wherever PTR stands. -/
theorem oldest_byte_alike (hseeded : s.cur.eng.state = .seeded) :
    s.cur.eng.buf.read s.cur.eng.ptr = s'.cur.eng.buf.read s'.cur.eng.ptr := by
  obtain ⟨hstate, -, -, hwin⟩ := hs.view
  have hhead := win_head hs.inv hseeded
  rw [hwin, win_head hs.inv' (hstate ▸ hseeded)] at hhead
  exact (Option.some.inj hhead).symm

theorem slideWindow_alike (hseeded : s.cur.eng.state = .seeded) (l e : Byte) :
    AnswerAlike s s' (.next (slideWindow l e s)) (.next (slideWindow l e s')) := by
  obtain ⟨hstate, hwlen, hhash, hwin⟩ := hs.view
  rw [slideWindow_eq, slideWindow_eq, ← hs.part, ← hwlen, ← hhash]
  refine complete_alike hs ?_ _
  refine ⟨hstate, hwlen, ?_, ?_⟩
  · rw [rotated_hash, rotated_hash, hwlen, hhash]
  · rw [win_rotated hs.inv hseeded, win_rotated hs.inv' (hstate ▸ hseeded), hwin]

theorem execConfig_alike (wl : Word32) : AnswerAlike s s' (execConfig wl s) (execConfig wl s') := by
  rw [execConfig, execConfig, ← hs.part]
  split
  · exact raise_alike hs _
  · refine complete_alike hs ?_ _
    exact ⟨rfl, rfl, rfl, rfl⟩

theorem execSeed_alike {n : Word32} {payload : List Word64} (hwf : (Instr.seed n payload).wf = true) :
    AnswerAlike s s' (execSeed n payload s) (execSeed n payload s') := by
  obtain ⟨hstate, hwlen, -, -⟩ := hs.view
  by_cases huncfg : s.cur.eng.state = .unconfigured
  · rw [execSeed_unconfigured huncfg, execSeed_unconfigured (hstate ▸ huncfg)]
    exact raise_alike hs _
  · by_cases hshort : n.toNat < s.cur.eng.wlen.toNat
    · rw [execSeed_short huncfg hshort, execSeed_short (hstate ▸ huncfg) (hwlen ▸ hshort)]
      exact raise_alike hs _
    · have henough := Nat.not_lt.1 hshort
      rw [execSeed_enough hs.inv hwf huncfg henough, execSeed_enough hs.inv' hwf (hstate ▸ huncfg) (hwlen ▸ henough),
        ← hs.part, ← hwlen]
      have hlen : ((seedBytes n payload).take s.cur.eng.wlen.toNat).length = s.cur.eng.wlen.toNat := by
        rw [List.length_take, seedBytes_length_wf hwf, min_eq_left henough]
      refine complete_alike hs ?_ _
      refine ⟨rfl, hwlen, ?_, ?_⟩
      · rw [loaded_hash, loaded_hash, hwlen]
      · rw [win_loaded _ _ hlen, win_loaded _ _ (hlen.trans (congrArg BitVec.toNat hwlen))]

theorem execRotate_alike (l e : Byte) : AnswerAlike s s' (execRotate l e s) (execRotate l e s') := by
  have hstate := hs.view.1
  cases h : s.cur.eng.state with
  | unconfigured =>
    rw [execRotate_unconfigured l e h, execRotate_unconfigured l e (hstate ▸ h)]
    exact raise_alike hs _
  | unseeded =>
    rw [execRotate_unseeded l e h, execRotate_unseeded l e (hstate ▸ h)]
    exact raise_alike hs _
  | seeded =>
    rw [execRotate_seeded l e hs.inv h, execRotate_seeded l e hs.inv' (hstate ▸ h)]
    exact slideWindow_alike hs h l e

theorem execRotateChecked_alike (l e : Byte) :
    AnswerAlike s s' (execRotateChecked l e s) (execRotateChecked l e s') := by
  have hstate := hs.view.1
  cases h : s.cur.eng.state with
  | unconfigured =>
    rw [execRotateChecked_unconfigured l e h, execRotateChecked_unconfigured l e (hstate ▸ h)]
    exact raise_alike hs _
  | unseeded =>
    rw [execRotateChecked_unseeded l e h, execRotateChecked_unseeded l e (hstate ▸ h)]
    exact raise_alike hs _
  | seeded =>
    rw [execRotateChecked_seeded l e hs.inv h, execRotateChecked_seeded l e hs.inv' (hstate ▸ h),
      ← oldest_byte_alike hs h]
    split
    · exact slideWindow_alike hs h l e
    · exact raise_alike hs _

/-- Every command answers alike from states that look alike. -/
theorem exec_alike {i : Instr} (hwf : i.wf = true) : AnswerAlike s s' (exec i s) (exec i s') := by
  cases i with
  | config wl => exact execConfig_alike hs wl
  | seed n payload => exact execSeed_alike hs hwf
  | rotate l e => exact execRotate_alike hs l e
  | rotateChecked l e => exact execRotateChecked_alike hs l e

end

/-- Settles O35: the two states look alike, and every command keeps it so. -/
theorem hiddenStateStaysHidden : Obligations.HiddenStateStaysHidden :=
  fun _ _ _ hwf hinv hinv' hpart howner hview => exec_alike ⟨hinv, hinv', hpart, howner, hview⟩ hwf

end Sys2Proof.Machine
end

section
/-! PROOFS. What a command does to its instance, said once for all commands: the registers it writes, the response it
answers and the frame. Response words are told apart by their decoder (30_encoding.md R73, R74). -/

namespace Sys2Proof.Machine

/-! ### Response words -/

@[simp] theorem statusOfCode_statusCode (st : Status) : statusOfCode (statusCode st) = some st := by
  cases st <;> rfl

theorem responseWord_toNat (st : Status) (data : Word32) :
    (responseWord st data).toNat = (statusCode st).toNat * 2 ^ 32 + data.toNat := by
  rw [responseWord, append_toNat, append_toNat, BitVec.toNat_ofNat]; omega

/-- The decoder of responses inverts the response word (R73). -/
@[simp] theorem decodeResponse_responseWord (st : Status) (data : Word32) :
    decodeResponse (responseWord st data) = some (st, data) := by
  have hcode := (statusCode st).isLt
  have hdata := data.isLt
  have hzero : (responseWord st data).extractLsb' 36 28 = 0#28 := by
    rw [← BitVec.toNat_inj, BitVec.extractLsb'_toNat, responseWord_toNat, Nat.shiftRight_eq_div_pow, BitVec.toNat_ofNat]
    omega
  have hstatus : (responseWord st data).extractLsb' 32 4 = statusCode st := by
    rw [← BitVec.toNat_inj, BitVec.extractLsb'_toNat, responseWord_toNat, Nat.shiftRight_eq_div_pow]
    omega
  have hlow : (responseWord st data).extractLsb' 0 32 = data := by
    rw [← BitVec.toNat_inj, BitVec.extractLsb'_toNat, responseWord_toNat, Nat.shiftRight_eq_div_pow]
    omega
  rw [decodeResponse, if_pos hzero, hstatus, hlow, statusOfCode_statusCode]
  rfl

theorem responseWord_inj {st st' : Status} {data data' : Word32} (h : responseWord st data = responseWord st' data') :
    st = st' ∧ data = data' := by
  simpa using congrArg decodeResponse h

/-- A command has one response, so one STATUS and one DATA. -/
theorem answers_unique {s t : State} {st st' : Status} {d d' : Word32} (h : s.Answers t st d)
    (h' : s.Answers t st' d') : st = st' ∧ d = d' := by
  have hlast := List.append_cancel_left (h.symm.trans h')
  exact responseWord_inj (congrArg Response.word (List.head_eq_of_cons_eq hlast))

/-! ### Commands -/

/-- What the command `i` may do to the registers `e` of an instance of the part `p`: write them so, and answer the
STATUS and DATA given. -/
inductive RegisterEffect (p : Part) (e : Engine) : Instr → Engine → Status → Word32 → Prop where
  /-- No register is written by a command that ends in an error (60_exceptions.md R111). -/
  | error {i : Instr} {st : Status} (hst : st ≠ .ok) : RegisterEffect p e i e st 0
  /-- 40_configure.md R80. -/
  | config {wl : Word32} (hpos : 1 ≤ wl.toNat) (hmax : wl.toNat ≤ p.wmax) :
    RegisterEffect p e (.config wl) (e.configured wl) .ok 0
  /-- 41_seed.md R86. -/
  | seed {n : Word32} {payload : List Word64} {win : List Byte} (hs : e.state ≠ .unconfigured)
    (hlen : win.length = e.wlen.toNat) :
    RegisterEffect p e (.seed n payload) (e.loaded (tableRead p) win) .ok (hashOf (tableRead p) e.wlen.toNat win)
  /-- 42_rotate.md R96. -/
  | rotate {l b : Byte} (hs : e.state = .seeded) :
    RegisterEffect p e (.rotate l b) (e.rotated (tableRead p) l b) .ok (rotStep (tableRead p) e.wlen.toNat e.hash l b)
  /-- 42_rotate.md R97. -/
  | rotateChecked {l b : Byte} (hs : e.state = .seeded) (hl : l = e.buf.read e.ptr) :
    RegisterEffect p e (.rotateChecked l b) (e.rotated (tableRead p) l b) .ok
      (rotStep (tableRead p) e.wlen.toNat e.hash l b)

/-- From `s` to `t` the command `i` takes effect on the selected instance, and nothing else moves. -/
def TakesEffect (i : Instr) (s t : State) : Prop :=
  s.SameElsewhere t ∧ t.cur.rx = s.cur.rx ∧
    ∃ st d, s.Answers t st d ∧ RegisterEffect s.part s.cur.eng i t.cur.eng st d

theorem raise_takesEffect (i : Instr) (s : State) {st : Status} (hst : st ≠ .ok) : TakesEffect i s (s.raise st) :=
  ⟨⟨rfl, rfl, rfl, rfl, rfl, rfl, rfl⟩, rfl, st, 0, rfl, .error hst⟩

theorem complete_takesEffect {i : Instr} {s : State} {e : Engine} {d : Word32}
    (h : RegisterEffect s.part s.cur.eng i e .ok d) : TakesEffect i s (s.complete e d) :=
  ⟨⟨rfl, rfl, rfl, rfl, rfl, rfl, rfl⟩, rfl, .ok, d, rfl, h⟩

/-- Every command that completes has one of the listed effects. -/
theorem exec_takesEffect {i : Instr} {s t : State} (h : exec i s = .next t) : TakesEffect i s t := by
  cases i with
  | config wl =>
    rcases execConfig_cases h with ⟨-, rfl⟩ | ⟨hlegal, rfl⟩
    · exact raise_takesEffect _ _ (by decide)
    · have hzero : wl.toNat = 0 → wl = 0 := fun h0 => BitVec.eq_of_toNat_eq h0
      rw [not_or] at hlegal
      exact complete_takesEffect (.config (Nat.pos_of_ne_zero fun h0 => hlegal.1 (hzero h0)) (Nat.not_lt.1 hlegal.2))
  | seed n payload =>
    rcases execSeed_cases h with ⟨-, rfl⟩ | ⟨-, -, rfl⟩ | ⟨hs, -, hlen, -, rfl⟩
    · exact raise_takesEffect _ _ (by decide)
    · exact raise_takesEffect _ _ (by decide)
    · exact complete_takesEffect (.seed hs (by rw [List.length_take, min_eq_left hlen]))
  | rotate l b =>
    rcases execRotate_cases h with ⟨-, rfl⟩ | ⟨-, rfl⟩ | ⟨hs, -, rfl⟩
    · exact raise_takesEffect _ _ (by decide)
    · exact raise_takesEffect _ _ (by decide)
    · exact complete_takesEffect (.rotate hs)
  | rotateChecked l b =>
    rcases execRotateChecked_cases h with ⟨-, rfl⟩ | ⟨-, rfl⟩ | ⟨hs, -, ⟨-, rfl⟩ | ⟨hl, rfl⟩⟩
    · exact raise_takesEffect _ _ (by decide)
    · exact raise_takesEffect _ _ (by decide)
    · exact raise_takesEffect _ _ (by decide)
    · exact complete_takesEffect (.rotateChecked hs hl)

/-- Settles O32, effect by effect; the response tells which effect it was. -/
theorem stateMovesOnlyAsListed : Obligations.StateMovesOnlyAsListed := by
  refine ⟨⟨rfl, rfl, rfl⟩, fun i s t st d hexec hans => ?_⟩
  obtain ⟨-, -, st', d', hans', heffect⟩ := exec_takesEffect hexec
  obtain ⟨rfl, rfl⟩ := answers_unique hans hans'
  generalize t.cur.eng = e' at heffect ⊢
  cases heffect with
  | error hst => exact ⟨fun _ => ⟨rfl, rfl⟩, fun hok => absurd hok hst⟩
  | config => simp
  | seed hs => simp [hs]
  | rotate hs => simp [hs]
  | rotateChecked hs => simp [hs]

end Sys2Proof.Machine
end

section
/-! PROOFS. The registers after a command: the invariant (10_state.md R23 to R28) and the hash of the window (R29)
hold of each of its effects. -/

namespace Sys2Proof.Machine

/-! ### The invariant of the registers -/

theorem reset_engine_inv (p : Part) : Engine.reset.Inv p where
  buf_wf := wf_nil
  buf_lt := by simp [Engine.reset]
  wlen_range := by simp [Engine.reset]
  wlen_zero _ := rfl
  hash_ptr_zero _ := ⟨rfl, rfl⟩
  ptr_lt := by simp [Engine.reset]

section
variable {p : Part} {e : Engine} (hinv : e.Inv p)
include hinv

theorem configured_inv {wl : Word32} (hpos : 1 ≤ wl.toNat) (hmax : wl.toNat ≤ p.wmax) : (e.configured wl).Inv p where
  buf_wf := wf_clear hinv.buf_wf _
  buf_lt := clear_lt hinv.buf_lt
  wlen_range _ := ⟨hpos, hmax⟩
  wlen_zero := by simp
  hash_ptr_zero _ := ⟨rfl, rfl⟩
  ptr_lt := by simp

theorem loaded_inv (T : Byte → Word32) {win : List Byte} (hs : e.state ≠ .unconfigured)
    (hlen : win.length = e.wlen.toNat) : (e.loaded T win).Inv p where
  buf_wf := wf_load hinv.buf_wf _
  buf_lt := load_lt hinv.buf_lt (hlen ▸ (hinv.wlen_range hs).2)
  wlen_range _ := hinv.wlen_range hs
  wlen_zero := by simp
  hash_ptr_zero := by simp
  ptr_lt _ := (hinv.wlen_range hs).1

theorem rotated_inv (T : Byte → Word32) (l b : Byte) (hs : e.state = .seeded) : (e.rotated T l b).Inv p where
  buf_wf := wf_write hinv.buf_wf _ _
  buf_lt := write_lt hinv.buf_lt (ptr_lt_wmax hinv hs)
  wlen_range := hinv.wlen_range
  wlen_zero := hinv.wlen_zero
  hash_ptr_zero h := absurd hs h
  ptr_lt _ := Nat.mod_lt _ (hinv.wlen_range (by simp [hs])).1

/-- Every effect of a command keeps the invariant of the registers. -/
theorem registerEffect_keeps_inv {i : Instr} {e' : Engine} {st : Status} {d : Word32}
    (h : RegisterEffect p e i e' st d) : e'.Inv p := by
  cases h with
  | error => exact hinv
  | config hpos hmax => exact configured_inv hinv hpos hmax
  | seed hs hlen => exact loaded_inv hinv _ hs hlen
  | rotate hs => exact rotated_inv hinv _ _ _ hs
  | rotateChecked hs => exact rotated_inv hinv _ _ _ hs

end

/-! ### HASH and the window -/

/-- One rotation moves every term of the hash to the position before its own. -/
theorem rotl32_hashTerms_one (T : Byte → Word32) {w i : Nat} {bs : List Byte} (h : i + 1 + bs.length ≤ w) :
    rotl32 (hashTerms T w (i + 1) bs) 1 = hashTerms T w i bs := by
  induction bs generalizing i with
  | nil => exact rotl32_blank 1
  | cons b bs ih =>
    rw [List.length_cons] at h
    have hamount : ((w - 1 - (i + 1)) % 32 + 1) % 32 = ((w - 1 - i) % 32) % 32 := by omega
    rw [hashTerms_cons, hashTerms_cons, rotl32_xor, rotl32_rotl32, rotl32_congr _ hamount, ih (by omega)]

/-- Given the oldest byte as the leaving one, the rotate-update computes the hash of the window moved on by one byte:
the term of the oldest byte, rotated once more, cancels (R95, R100). -/
theorem rotStep_hashOf (T : Byte → Word32) {w : Nat} {l : Byte} {rest : List Byte} (hlen : (l :: rest).length = w)
    (b : Byte) : rotStep T w (hashOf T w (l :: rest)) l b = hashOf T w (rest ++ [b]) := by
  rw [List.length_cons] at hlen
  have holdest : rotl32 (rotl32 (T l) ((w - 1 - 0) % 32)) 1 = rotl32 (T l) (w % 32) := by
    rw [rotl32_rotl32]
    exact rotl32_congr _ (by omega)
  have hnewest : hashTerms T w (0 + rest.length) [b] = T b := by
    rw [hashTerms_cons, hashTerms_nil, rotl32_of_mod_eq_zero _ (by omega)]
    exact BitVec.xor_zero
  rw [rotStep, hashOf, hashOf, hashTerms_cons, rotl32_xor, holdest, rotl32_hashTerms_one T (by omega),
    hashTerms_append, hnewest, BitVec.xor_comm (rotl32 _ _), BitVec.xor_assoc (hashTerms _ _ _ _), BitVec.xor_self,
    BitVec.xor_zero]

theorem reset_consistent (p : Part) : Engine.reset.Consistent p := by simp [Engine.Consistent, Engine.reset]

section
variable {p : Part} {e : Engine}

theorem loaded_consistent {win : List Byte} (hlen : win.length = e.wlen.toNat) :
    (e.loaded (tableRead p) win).Consistent p := fun _ => by
  rw [win_loaded _ _ hlen]
  rfl

variable (hinv : e.Inv p) (hcons : e.Consistent p)
include hinv hcons

theorem rotated_consistent {l : Byte} (hs : e.state = .seeded) (hl : e.win.head? = some l) (b : Byte) :
    (e.rotated (tableRead p) l b).Consistent p := fun _ => by
  obtain ⟨rest, hwin⟩ := List.head?_eq_some_iff.1 hl
  have hlen : (l :: rest).length = e.wlen.toNat := hwin ▸ win_length hs
  rw [win_rotated hinv hs, rotated_hash, rotated_wlen, hcons hs, hwin, rotStep_hashOf _ hlen]
  rfl

/-- Every effect of a command keeps HASH the hash of the window, if a ROTATE keeps the caller contract. -/
theorem registerEffect_keeps_consistent {i : Instr} {e' : Engine} {st : Status} {d : Word32}
    (h : RegisterEffect p e i e' st d)
    (hcontract : ∀ l b, i = .rotate l b → e.state = .seeded → e.win.head? = some l) : e'.Consistent p := by
  cases h with
  | error => exact hcons
  | config => exact fun hs => by simp at hs
  | seed _ hlen => exact loaded_consistent hlen
  | rotate hs => exact rotated_consistent hinv hcons hs (hcontract _ _ rfl hs) _
  | rotateChecked hs hl => exact rotated_consistent hinv hcons hs (hl ▸ win_head hinv hs) _

end

end Sys2Proof.Machine
end

section
/-! PROOFS. Steps: which instances a step moves, and what of them it leaves (30_encoding.md R60,
70_reset_and_hazards.md R130, R139, R140). -/

namespace Sys2Proof.Machine

/-! ### The selected instance -/

/-- `s` with another selected instance. -/
def State.setCur (s : State) (i : Inst) : State := { s with cur := i }

@[simp] theorem setCur_cur (s : State) (i : Inst) : (s.setCur i).cur = i := rfl
@[simp] theorem setCur_part (s : State) (i : Inst) : (s.setCur i).part = s.part := rfl

theorem setCur_insts (s : State) (i : Inst) : (s.setCur i).insts = s.insts.set s.sel i := by
  simp [State.insts, State.setCur, State.sel]

theorem cur_mem_insts (s : State) : s.cur ∈ s.insts := by simp [State.insts]

theorem mem_insts_of_other {s : State} {i : Inst} (h : i ∈ s.below ++ s.above) : i ∈ s.insts := by
  rw [List.mem_append] at h
  rw [State.insts, List.mem_append, List.mem_cons]
  exact h.imp_right Or.inr

theorem mem_insts_cases {s : State} {i : Inst} (h : i ∈ s.insts) : i = s.cur ∨ i ∈ s.below ++ s.above := by
  rw [State.insts, List.mem_append, List.mem_cons] at h
  rw [List.mem_append]
  exact or_left_comm.1 h

theorem mem_setCur_insts {s : State} {i c : Inst} (h : i ∈ (s.setCur c).insts) : i = c ∨ i ∈ s.insts :=
  (mem_insts_cases h).imp_right mem_insts_of_other

theorem eq_setCur_of_sameElsewhere {s t : State} (h : s.SameElsewhere t) : t = s.setCur t.cur := by
  obtain ⟨hpart, hbelow, habove, hrst, hinputs, -, -⟩ := h
  rw [State.setCur, ← hpart, ← hbelow, ← habove, ← hrst, ← hinputs]

/-! ### Steps -/

/-- From `s` to `t` the command accepted by the selected port ends: its words are taken and it has one response; where
it is illegal (60_exceptions.md R116) no register is written. -/
def CommandEnds (s t : State) : Prop :=
  s.SameElsewhere t ∧ t.cur.rx = none ∧ ∃ st d, s.Answers t st d ∧
    (t.cur.eng = s.cur.eng ∨
      ∃ i u, s.fetch = some (.ok i, u) ∧ RegisterEffect s.part s.cur.eng i t.cur.eng st d)

/-- What a step can do to the instances: a command ends, or the next host event takes place. -/
theorem step_effect {s t : State} (h : step s = .next t) :
    (s.rst = false ∧ s.cur.rx ≠ none ∧ s.fetch ≠ none ∧ CommandEnds s t) ∨ (s.fetch = none ∧ t = s.hostStep) := by
  rcases step_cases h with ⟨f, i, hr, hf, hm, hd, hexec⟩ | ⟨f, r, hr, hf, hm, -, rfl⟩ | hhost
  · have hfetch := hd ▸ fetch_of_rx hr hf hm
    obtain ⟨hsame, hrx, st, d, hans, heffect⟩ := exec_takesEffect hexec
    exact Or.inl ⟨hr, by simp [hf], by simp [hfetch], hsame, hrx, st, d, hans, Or.inr ⟨i, _, hfetch, heffect⟩⟩
  · have hfetch := fetch_of_rx hr hf hm
    exact Or.inl ⟨hr, by simp [hf], by simp [hfetch], ⟨rfl, rfl, rfl, rfl, rfl, rfl, rfl⟩, rfl, .eIllegal, 0, rfl,
      Or.inl rfl⟩
  · exact Or.inr hhost

/-! ### Host events -/

theorem offer_eq (s : State) (h : Nat) (w : Word64) :
    s.offer h w = if s.rst = false ∧ s.cur.ready s.part h then s.setCur (s.cur.accept h w) else s := rfl

/-- Accepting a word writes no register. -/
@[simp] theorem accept_eng (i : Inst) (h : Nat) (w : Word64) : (i.accept h w).eng = i.eng := by
  unfold Inst.accept
  split <;> rfl

/-- Giving a response out writes no register. -/
@[simp] theorem take_eng (i : Inst) (h : Nat) : (i.take h).eng = i.eng := by
  unfold Inst.take
  split
  · rfl
  · split <;> rfl

/-- What the host event `ev` may make of `s`. -/
inductive HostEffect (s : State) : HostEvent → State → Prop where
  /-- The event names an instance that does not exist (log 14). -/
  | nothing {ev : HostEvent} : HostEffect s ev s
  /-- The port does not accept the word (log 6). -/
  | hold {h k : Nat} {w : Word64} {t : State} (hsel : s.select k = some t) : HostEffect s (.send h k w) t
  | accept {h k : Nat} {w : Word64} {t : State} (hsel : s.select k = some t) (hrst : t.rst = false)
    (hready : t.cur.ready t.part h = true) : HostEffect s (.send h k w) (t.setCur (t.cur.accept h w))
  | take {h k : Nat} {t : State} (hsel : s.select k = some t) : HostEffect s (.take h k) (t.setCur (t.cur.take h))
  | assertReset : HostEffect s (.rst true) s.assertReset
  | releaseReset : HostEffect s (.rst false) s.releaseReset

theorem apply_effect (s : State) (ev : HostEvent) : HostEffect s ev (s.apply ev) := by
  cases ev with
  | send h k w =>
    rw [State.apply]
    split
    · exact .nothing
    · next t hsel =>
      rw [offer_eq]
      split
      · next hacc => exact .accept hsel hacc.1 hacc.2
      · exact .hold hsel
  | take h k =>
    rw [State.apply]
    split
    · exact .nothing
    · next t hsel => exact .take hsel
  | rst level =>
    cases level with
    | true => exact .assertReset
    | false => exact .releaseReset

/-- The host's turn is the next event, if there is one. -/
theorem hostStep_effect (s : State) :
    s.hostStep = s ∨
    ∃ ev rest, s.inputs = ev :: rest ∧ HostEffect ({ s with inputs := rest } : State) ev s.hostStep := by
  rcases hostStep_cases s with ⟨-, hidle⟩ | ⟨ev, rest, hin, hhost⟩
  · exact Or.inl hidle
  · exact Or.inr ⟨ev, rest, hin, hhost ▸ apply_effect _ ev⟩

theorem assertReset_insts (s : State) : s.assertReset.insts = List.replicate s.insts.length Inst.reset := by
  simp [State.insts, State.assertReset, List.map_const', ← List.replicate_succ]

/-- The registers of all instances, in the order of their numbers. -/
def State.engines (s : State) : List Engine := s.insts.map Inst.eng

theorem setCur_engines {s : State} {i : Inst} (h : i.eng = s.cur.eng) : (s.setCur i).engines = s.engines := by
  simp [State.engines, State.insts, State.setCur, h]

theorem select_engines {s t : State} {k : Nat} (h : s.select k = some t) : t.engines = s.engines := by
  rw [State.engines, select_insts h, State.engines]

/-- No host event but the assertion of `rst` writes a register. -/
theorem hostEffect_engines {s t : State} {ev : HostEvent} (h : HostEffect s ev t) (hev : ev ≠ .rst true) :
    t.engines = s.engines := by
  cases h with
  | nothing => rfl
  | hold hsel => exact select_engines hsel
  | accept hsel => rw [setCur_engines (accept_eng _ _ _), select_engines hsel]
  | take hsel => rw [setCur_engines (take_eng _ _), select_engines hsel]
  | assertReset => exact absurd rfl hev
  | releaseReset => rfl

theorem hostEffect_part {s t : State} {ev : HostEvent} (h : HostEffect s ev t) : t.part = s.part := by
  cases h with
  | nothing => rfl
  | hold hsel => exact (select_fields hsel).1
  | accept hsel => exact (select_fields hsel).1
  | take hsel => exact (select_fields hsel).1
  | assertReset => rfl
  | releaseReset => rfl

/-- What the host's turn does to the registers: nothing, unless `rst` is asserted, which resets every instance. -/
theorem hostStep_engines (s : State) :
    s.hostStep.engines = s.engines ∨
    (s.inputs.head? = some (.rst true) ∧ s.hostStep.insts = List.replicate s.insts.length Inst.reset) := by
  rcases hostStep_effect s with hidle | ⟨ev, rest, hin, heffect⟩
  · exact Or.inl (congrArg State.engines hidle)
  · by_cases hev : ev = .rst true
    · subst hev
      refine Or.inr ⟨by rw [hin]; rfl, ?_⟩
      rw [State.hostStep, hin]
      exact assertReset_insts { s with inputs := rest }
    · have hkept := hostEffect_engines heffect hev
      exact Or.inl hkept

theorem hostStep_part (s : State) : s.hostStep.part = s.part := by
  rcases hostStep_effect s with hidle | ⟨ev, rest, -, heffect⟩
  · exact congrArg State.part hidle
  · have hkept := hostEffect_part heffect
    exact hkept

theorem hostStep_insts_length (s : State) : s.hostStep.insts.length = s.insts.length := by
  rcases hostStep_engines s with hsame | ⟨-, hreset⟩
  · simpa [State.engines] using congrArg List.length hsame
  · rw [hreset, List.length_replicate]

/-- No step adds or removes an instance. -/
theorem step_insts_length {s t : State} (h : step s = .next t) : t.insts.length = s.insts.length := by
  rcases step_effect h with ⟨-, -, -, hsame, -⟩ | ⟨-, rfl⟩
  · rw [eq_setCur_of_sameElsewhere hsame, setCur_insts, List.length_set]
  · exact hostStep_insts_length s

/-- A command leaves every instance but the selected one. -/
theorem sameElsewhere_getElem? {s t : State} (h : s.SameElsewhere t) {k : Nat} (hk : k ≠ s.sel) :
    t.insts[k]? = s.insts[k]? := by
  rw [eq_setCur_of_sameElsewhere h, setCur_insts, List.getElem?_set_ne hk.symm]

/-- Settles O52: a command moves the selected instance only, and a host event other than the assertion of `rst` writes
no register. -/
theorem registersMoveOnlyByCommandOrReset : Obligations.RegistersMoveOnlyByCommandOrReset := by
  intro s t hstep k i hi
  have hk : k < t.insts.length := by
    rw [step_insts_length hstep]
    exact (List.getElem?_eq_some_iff.1 hi).1
  refine ⟨t.insts[k], List.getElem?_eq_getElem hk, fun hother hnoreset => ?_⟩
  have hj : t.insts[k]? = some t.insts[k] := List.getElem?_eq_getElem hk
  rcases step_effect hstep with ⟨-, -, hfetch, hsame, -⟩ | ⟨hfetch, rfl⟩
  · rw [sameElsewhere_getElem? hsame fun hsel => hother ⟨hfetch, hsel⟩, hi] at hj
    rw [← Option.some.inj hj]
  · rcases hostStep_engines s with hkept | ⟨hreset, -⟩
    · have hregs := congrArg (·[k]?) hkept
      simp only [State.engines, List.getElem?_map, hj, hi] at hregs
      exact Option.some.inj hregs
    · exact absurd hreset (hnoreset hfetch)

end Sys2Proof.Machine
end

section
/-! PROOFS. Every step keeps the invariant of the hardware (10_state.md section 2, 30_encoding.md R67, R74,
70_reset_and_hazards.md R130, R139), and with the caller contract the consistency of HASH (R29). -/

namespace Sys2Proof.Machine

/-! ### One instance -/

theorem reset_inst_inv (p : Part) : Inst.reset.Inv p where
  eng := reset_engine_inv p
  frame _ h := nomatch h
  resp_le := Nat.zero_le _
  resp_lt h := absurd rfl h
  resp_legal _ h := nomatch h

/-- Accepting a word the port is ready for: a header when there is room for a response, or payload still missing. -/
theorem accept_inv {p : Part} {i : Inst} {h : Nat} (hinv : i.Inv p) (hready : i.ready p h = true) (w : Word64) :
    (i.accept h w).Inv p := by
  cases hrx : i.rx with
  | none =>
    have hroom : i.resp.length < p.respDepth := by simpa [Inst.ready, hrx] using hready
    simp only [Inst.accept, hrx]
    exact { eng := hinv.eng
            frame := fun f hf => by cases hf; rfl
            resp_le := hinv.resp_le
            resp_lt := fun _ => hroom
            resp_legal := hinv.resp_legal }
  | some f =>
    have hmissing : 0 < f.missing := by
      simp only [Inst.ready, hrx, Bool.and_eq_true, decide_eq_true_eq] at hready
      exact hready.1
    have hframe : f.missing + f.payload.length = payloadWordsAfter f.header := hinv.frame f hrx
    simp only [Inst.accept, hrx]
    exact { eng := hinv.eng
            frame := fun g hg => by cases hg; simp only [Frame.Inv, List.length_append, List.length_singleton]; omega
            resp_le := hinv.resp_le
            resp_lt := fun _ => hinv.resp_lt (by simp [hrx])
            resp_legal := hinv.resp_legal }

/-- Taking a response moves it to the trace. -/
theorem take_cases (i : Inst) (h : Nat) :
    i.take h = i ∨ ∃ r rs, i.resp = r :: rs ∧ i.take h = { i with resp := rs, taken := i.taken ++ [r] } := by
  unfold Inst.take
  split
  · exact Or.inl rfl
  · next r rs hresp =>
    split
    · exact Or.inr ⟨r, rs, hresp, rfl⟩
    · exact Or.inl rfl

theorem take_inv {p : Part} {i : Inst} (hinv : i.Inv p) (h : Nat) : (i.take h).Inv p := by
  rcases take_cases i h with hsame | ⟨r, rs, hresp, hmove⟩
  · rwa [hsame]
  · have hlen : rs.length < i.resp.length := by simp [hresp]
    rw [hmove]
    exact { eng := hinv.eng
            frame := hinv.frame
            resp_le := hlen.le.trans hinv.resp_le
            resp_lt := fun hrx => hlen.trans (hinv.resp_lt hrx)
            resp_legal := fun q hq => hinv.resp_legal q (by simpa [hresp] using hq) }

/-- A command that ends leaves its port free, and one legal response more in the room kept for it. -/
theorem commandEnds_inv {s t : State} (hinv : s.cur.Inv s.part) (hrx : s.cur.rx ≠ none) (h : CommandEnds s t) :
    t.cur.Inv s.part := by
  obtain ⟨⟨-, -, -, -, -, -, htaken⟩, hfree, st, d, hans, heng⟩ := h
  have hroom : t.cur.resp.length ≤ s.part.respDepth := by
    rw [hans, List.length_append]
    exact hinv.resp_lt hrx
  refine { eng := ?_, frame := ?_, resp_le := hroom, resp_lt := ?_, resp_legal := ?_ }
  · rcases heng with hsame | ⟨i, u, -, heffect⟩
    · exact hsame ▸ hinv.eng
    · exact registerEffect_keeps_inv hinv.eng heffect
  · exact fun f hf => nomatch hfree.symm.trans hf
  · exact fun hne => absurd hfree hne
  · intro r hr
    rw [htaken, hans, ← List.append_assoc] at hr
    rcases List.mem_append.1 hr with hold | hnew
    · exact hinv.resp_legal r hold
    · rw [List.mem_singleton.1 hnew, decodeResponse_responseWord]
      rfl

/-! ### The hardware -/

theorem setCur_inv {s : State} {c : Inst} (hinv : s.Inv) (hc : c.Inv s.part) (hr : s.rst = true → c = Inst.reset) :
    (s.setCur c).Inv where
  part := hinv.part
  insts i hi := by
    rcases mem_setCur_insts hi with rfl | hi
    · exact hc
    · exact hinv.insts i hi
  waiting := hinv.waiting
  inReset hrst i hi := by
    rcases mem_setCur_insts hi with rfl | hi
    · exact hr hrst
    · exact hinv.inReset hrst i hi

/-- On no instance does a command wait with all its words accepted. -/
def State.Quiet (s : State) : Prop := ∀ i ∈ s.insts, ∀ f, i.rx = some f → 0 < f.missing

/-- When it is the hosts' turn, no command waits anywhere (log 7). -/
theorem quiet_of_fetch_none {s : State} (hinv : s.Inv) (hfetch : s.fetch = none) : s.Quiet := by
  intro i hi f hf
  rcases Bool.eq_false_or_eq_true s.rst with hrst | hrst
  · rw [hinv.inReset hrst i hi] at hf
    exact nomatch hf
  · rcases mem_insts_cases hi with rfl | hother
    · refine Nat.pos_of_ne_zero fun hzero => ?_
      rw [fetch_of_rx hrst hf hzero] at hfetch
      exact nomatch hfetch
    · exact hinv.waiting i hother f hf

theorem select_inv {s t : State} {k : Nat} (hinv : s.Inv) (hquiet : s.Quiet) (hsel : s.select k = some t) : t.Inv := by
  obtain ⟨hpart, hrst, -, -⟩ := select_fields hsel
  have hinsts := select_insts hsel
  exact { part := hpart ▸ hinv.part
          insts := by rw [hinsts, hpart]; exact hinv.insts
          waiting := fun i hi => hquiet i (hinsts ▸ mem_insts_of_other hi)
          inReset := by rw [hinsts, hrst]; exact hinv.inReset }

theorem assertReset_inv {s : State} (hinv : s.Inv) : s.assertReset.Inv := by
  have hreset : ∀ i ∈ s.assertReset.insts, i = Inst.reset := fun i hi => by
    rw [assertReset_insts] at hi
    exact List.eq_of_mem_replicate hi
  exact { part := hinv.part
          insts := fun i hi => hreset i hi ▸ reset_inst_inv _
          waiting := fun i hi f hf => by
            rw [hreset i (mem_insts_of_other hi)] at hf
            exact nomatch hf
          inReset := fun _ => hreset }

theorem releaseReset_inv {s : State} (hinv : s.Inv) : s.releaseReset.Inv where
  part := hinv.part
  insts := hinv.insts
  waiting := hinv.waiting
  inReset h := nomatch h

theorem hostEffect_keeps_inv {s t : State} {ev : HostEvent} (hinv : s.Inv) (hquiet : s.Quiet)
    (h : HostEffect s ev t) : t.Inv := by
  cases h with
  | nothing => exact hinv
  | hold hsel => exact select_inv hinv hquiet hsel
  | accept hsel hrst hready =>
    have hsinv := select_inv hinv hquiet hsel
    exact setCur_inv hsinv (accept_inv (hsinv.insts _ (cur_mem_insts _)) hready _) fun hr => by simp [hrst] at hr
  | take hsel =>
    have hsinv := select_inv hinv hquiet hsel
    refine setCur_inv hsinv (take_inv (hsinv.insts _ (cur_mem_insts _)) _) fun hr => ?_
    rw [hsinv.inReset hr _ (cur_mem_insts _)]
    rfl
  | assertReset => exact assertReset_inv hinv
  | releaseReset => exact releaseReset_inv hinv

theorem hostStep_keeps_inv {s : State} (hinv : s.Inv) (hquiet : s.Quiet) : s.hostStep.Inv := by
  rcases hostStep_effect s with hidle | ⟨ev, rest, -, heffect⟩
  · rwa [hidle]
  · have hinv' : ({ s with inputs := rest } : State).Inv := ⟨hinv.part, hinv.insts, hinv.waiting, hinv.inReset⟩
    exact hostEffect_keeps_inv hinv' hquiet heffect

/-- Settles O49: a command leaves its instance in the invariant, and so does every host event. -/
theorem stepKeepsInvariant : Obligations.StepKeepsInvariant := by
  intro s t hinv hstep
  rcases step_effect hstep with ⟨hrst, hrx, -, hends⟩ | ⟨hfetch, rfl⟩
  · rw [eq_setCur_of_sameElsewhere hends.1]
    exact setCur_inv hinv (commandEnds_inv (hinv.insts _ (cur_mem_insts s)) hrx hends) fun hr => by simp [hrst] at hr
  · exact hostStep_keeps_inv hinv (quiet_of_fetch_none hinv hfetch)

/-! ### HASH along a run -/

/-- Consistency is about the registers and the table only. -/
theorem consistent_iff_engines (s : State) : s.Consistent ↔ ∀ e ∈ s.engines, e.Consistent s.part := by
  simp [State.Consistent, State.engines]

theorem setCur_consistent {s : State} {c : Inst} (hcons : s.Consistent) (hc : c.eng.Consistent s.part) :
    (s.setCur c).Consistent := by
  intro i hi
  rcases mem_setCur_insts hi with rfl | hi
  · exact hc
  · exact hcons i hi

theorem hostStep_keeps_consistent {s : State} (hcons : s.Consistent) : s.hostStep.Consistent := by
  rcases hostStep_engines s with hkept | ⟨-, hreset⟩
  · rw [consistent_iff_engines, hkept, hostStep_part]
    exact (consistent_iff_engines s).1 hcons
  · intro i hi
    rw [hreset] at hi
    rw [List.eq_of_mem_replicate hi]
    exact reset_consistent _

/-- One step of R29: only a ROTATE could break it, and the contract gives that one the oldest byte. -/
theorem step_keeps_consistent {s t : State} (hinv : s.Inv) (hcons : s.Consistent) (hcontract : s.KeepsContract)
    (hstep : step s = .next t) : t.Consistent := by
  rcases step_effect hstep with ⟨-, -, -, hsame, -, st, d, -, heng⟩ | ⟨-, rfl⟩
  · have hcur := cur_mem_insts s
    rw [eq_setCur_of_sameElsewhere hsame]
    refine setCur_consistent hcons ?_
    rcases heng with hkept | ⟨i, u, hfetch, heffect⟩
    · exact hkept ▸ hcons _ hcur
    · refine registerEffect_keeps_consistent (hinv.insts _ hcur).eng (hcons _ hcur) heffect fun l b hi hs => ?_
      exact hcontract l b u (hi ▸ hfetch) hs
  · exact hostStep_keeps_consistent hcons

/-- Settles O51, by induction on the length of the run. -/
theorem hashStaysConsistentWithWindow : Obligations.HashStaysConsistentWithWindow := by
  intro n
  induction n with
  | zero =>
    intro s t _ hcons _ hrun
    rw [run_zero] at hrun
    exact Host.Outcome.next.inj hrun ▸ hcons
  | succ n ih =>
    intro s t hinv hcons hcontract hrun
    obtain ⟨u, hstep, hrest⟩ := run_succ_cases hrun
    have hfirst := hcontract 0 s (Nat.succ_pos n) (run_zero s)
    refine ih u t (stepKeepsInvariant s u hinv hstep) (step_keeps_consistent hinv hcons hfirst hstep) ?_ hrest
    exact fun k v hk hv => hcontract (k + 1) v (Nat.succ_lt_succ hk) ((run_succ_of_next hstep).trans hv)

end Sys2Proof.Machine
end

section
/-! PROOFS. A command and the rest of the hardware (10_state.md R34): what stands around the selected instance decides
nothing and does not change. -/

namespace Sys2Proof.Machine

/-- The outcome `o` of a command, with the selected instance it leaves put into `s'`. -/
def outcomeIn (s' : State) : Host.Outcome State Fault Refusal → Host.Outcome State Fault Refusal
  | .next t => .next (s'.setCur t.cur)
  | .fault r => .fault r
  | .refused r => .refused r

section
variable {s s' : State} (hpart : s.part = s'.part) (hcur : s.cur = s'.cur)

include hcur in
theorem raise_in (st : Status) : s'.raise st = s'.setCur (s.raise st).cur := by
  simp [State.raise, State.respond, State.setCur, hcur]

include hcur in
theorem complete_in (e : Engine) (d : Word32) : s'.complete e d = s'.setCur (s.complete e d).cur := by
  simp [State.complete, State.setEng, State.respond, State.setCur, hcur]

include hpart in
theorem withBufIndex_in (j : Nat) (o : Host.Outcome State Fault Refusal) :
    withBufIndex s' j (outcomeIn s' o) = outcomeIn s' (withBufIndex s j o) := by
  rw [withBufIndex, withBufIndex, hpart]
  split <;> rfl

include hpart hcur

theorem slideWindow_in (l e : Byte) : slideWindow l e s' = s'.setCur (slideWindow l e s).cur := by
  rw [slideWindow_eq, slideWindow_eq, hpart, hcur]
  exact complete_in hcur _ _

theorem execConfig_in (wl : Word32) : execConfig wl s' = outcomeIn s' (execConfig wl s) := by
  rw [execConfig, execConfig, hpart, ← hcur]
  split
  · exact congrArg _ (raise_in hcur _)
  · exact congrArg _ (complete_in hcur _ _)

theorem execSeed_in (n : Word32) (payload : List Word64) :
    execSeed n payload s' = outcomeIn s' (execSeed n payload s) := by
  rw [execSeed, execSeed, ← hcur]
  split
  · exact congrArg _ (raise_in hcur _)
  · split
    · exact congrArg _ (raise_in hcur _)
    · split
      · rfl
      · rw [seedWindow, seedWindow, ← hcur, ← withBufIndex_in hpart, complete_in hcur, ← hpart]
        rfl

theorem execRotate_in (l e : Byte) : execRotate l e s' = outcomeIn s' (execRotate l e s) := by
  rw [execRotate, execRotate, ← hcur]
  split
  · exact congrArg _ (raise_in hcur _)
  · exact congrArg _ (raise_in hcur _)
  · rw [← withBufIndex_in hpart, slideWindow_in hpart hcur]
    rfl

theorem execRotateChecked_in (l e : Byte) : execRotateChecked l e s' = outcomeIn s' (execRotateChecked l e s) := by
  rw [execRotateChecked, execRotateChecked, ← hcur]
  split
  · exact congrArg _ (raise_in hcur _)
  · exact congrArg _ (raise_in hcur _)
  · rw [← withBufIndex_in hpart, slideWindow_in hpart hcur, raise_in hcur]
    split <;> rfl

/-- A command does to its instance in `s'` what it does to the same instance in `s`. -/
theorem exec_in (i : Instr) : exec i s' = outcomeIn s' (exec i s) := by
  cases i with
  | config wl => exact execConfig_in hpart hcur wl
  | seed n payload => exact execSeed_in hpart hcur n payload
  | rotate l e => exact execRotate_in hpart hcur l e
  | rotateChecked l e => exact execRotateChecked_in hpart hcur l e

end

theorem withBufIndex_ne_refused (s t : State) (j : Nat) (r : Refusal) : withBufIndex s j (.next t) ≠ .refused r := by
  rw [withBufIndex]
  split <;> nofun

/-- Every command is modelled. -/
theorem exec_ne_refused (i : Instr) (s : State) (r : Refusal) : exec i s ≠ .refused r := by
  cases i with
  | config wl => exact nofun
  | seed n payload =>
    rw [exec, execSeed]
    split
    · nofun
    · split
      · nofun
      · split
        · nofun
        · exact withBufIndex_ne_refused _ _ _ _
  | rotate l e =>
    rw [exec, execRotate]
    split
    · nofun
    · nofun
    · exact withBufIndex_ne_refused _ _ _ _
  | rotateChecked l e =>
    rw [exec, execRotateChecked]
    split
    · nofun
    · nofun
    · exact withBufIndex_ne_refused _ _ _ _

/-- Settles O36: the effect's frame, and the same command around the same instance. -/
theorem commandTouchesOwnInstanceOnly : Obligations.CommandTouchesOwnInstanceOnly := by
  intro i s s' hpart hcur
  refine ⟨fun t hexec => ?_, fun f hexec => ?_, exec_ne_refused i s⟩
  · obtain ⟨hsame, hrx, -⟩ := exec_takesEffect hexec
    exact ⟨hsame, hrx, s'.setCur t.cur, by rw [exec_in hpart hcur, hexec]; rfl, rfl⟩
  · rw [exec_in hpart hcur, hexec]
    rfl

end Sys2Proof.Machine
end

section
/-! PROOFS. The model's own stops (20_memory.md R43, 93_implementation_defined.md U6), and a SEED repeated
(20_memory.md R48). -/

namespace Sys2Proof.Machine

/-! ### Where SEED, ROTATE and ROTATE_CHECKED stop -/

theorem withBufIndex_of_ge {s : State} {j : Nat} {k : Host.Outcome State Fault Refusal} (h : s.part.wmax ≤ j) :
    withBufIndex s j k = .fault (.bufIndexOutOfRange j) := if_neg (Nat.not_lt.2 h)

section
variable {s : State} (l e : Byte)

theorem execRotate_ptr_out_of_range (hs : s.cur.eng.state = .seeded) (hptr : s.part.wmax ≤ s.cur.eng.ptr) :
    execRotate l e s = .fault (.bufIndexOutOfRange s.cur.eng.ptr) := by
  simp [execRotate, hs, withBufIndex_of_ge hptr]

theorem execRotateChecked_ptr_out_of_range (hs : s.cur.eng.state = .seeded) (hptr : s.part.wmax ≤ s.cur.eng.ptr) :
    execRotateChecked l e s = .fault (.bufIndexOutOfRange s.cur.eng.ptr) := by
  simp [execRotateChecked, hs, withBufIndex_of_ge hptr]

end

section
variable {s : State} {n : Word32} {payload : List Word64} (hs : s.cur.eng.state ≠ .unconfigured)
  (hn : s.cur.eng.wlen.toNat ≤ n.toNat)
include hs hn

theorem execSeed_payload_missing (hlen : (seedBytes n payload).length < s.cur.eng.wlen.toNat) :
    execSeed n payload s = .fault .payloadMissing := by
  rw [execSeed, if_neg hs, if_neg (Nat.not_lt.2 hn), if_pos hlen]

/-- A SEED whose term carries WLEN bytes goes on to load them, whatever the rest of the state. -/
theorem execSeed_eq_seedWindow (hlen : s.cur.eng.wlen.toNat ≤ (seedBytes n payload).length) :
    execSeed n payload s = seedWindow ((seedBytes n payload).take s.cur.eng.wlen.toNat) s := by
  rw [execSeed, if_neg hs, if_neg (Nat.not_lt.2 hn), if_neg (Nat.not_lt.2 hlen)]

theorem execSeed_loads (hlen : s.cur.eng.wlen.toNat ≤ (seedBytes n payload).length)
    (hmax : s.cur.eng.wlen.toNat - 1 < s.part.wmax) :
    execSeed n payload s = .next
      (s.complete (s.cur.eng.loaded (tableRead s.part) ((seedBytes n payload).take s.cur.eng.wlen.toNat))
        (hashOf (tableRead s.part) s.cur.eng.wlen.toNat ((seedBytes n payload).take s.cur.eng.wlen.toNat))) :=
  (execSeed_eq_seedWindow hs hn hlen).trans (withBufIndex_of_lt hmax)

end

/-- Settles O30: each of the three commands at its own stop; a SEED term carries min(N, 8 * payload words) bytes. -/
theorem indexOutsideBufferFaults : Obligations.IndexOutsideBufferFaults := by
  refine ⟨fun l e s hs hptr => ?_, fun n p s hs hn => ⟨fun hshort => ?_, fun henough hmax => ?_⟩⟩
  · exact ⟨execRotate_ptr_out_of_range l e hs hptr, execRotateChecked_ptr_out_of_range l e hs hptr⟩
  · exact execSeed_payload_missing hs hn (by rw [seedBytes_length]; omega)
  · have hload := execSeed_eq_seedWindow (payload := p) hs hn (by rw [seedBytes_length]; omega)
    exact hload.trans (withBufIndex_of_ge hmax)

/-! ### A SEED repeated -/

/-- What a load writes is below its length, so a second load replaces exactly that. -/
theorem clear_load (m : Memory) (bs : List Byte) : (m.load bs).clear bs.length = m.clear bs.length := by
  have hnew : (Memory.cellsFrom 0 bs).clear bs.length = [] := by
    refine List.filter_eq_nil_iff.2 fun c hc => ?_
    have hbelow := (mem_cellsFrom hc).2.1
    simpa using hbelow
  have hold : (m.clear bs.length).clear bs.length = m.clear bs.length := by
    simp [Memory.clear, List.filter_filter]
  calc (m.load bs).clear bs.length
      = (Memory.cellsFrom 0 bs).clear bs.length ++ (m.clear bs.length).clear bs.length := List.filter_append ..
    _ = m.clear bs.length := by rw [hnew, hold, List.nil_append]

theorem load_load (m : Memory) (bs : List Byte) : (m.load bs).load bs = m.load bs := by
  rw [Memory.load, clear_load, Memory.load]

/-- Loading the same window twice writes the same registers and the same BUF. -/
theorem loaded_loaded (e : Engine) (T : Byte → Word32) (win : List Byte) :
    (e.loaded T win).loaded T win = e.loaded T win :=
  congrArg (fun buf => { e.loaded T win with buf := buf }) (load_load e.buf win)

/-- Settles O34: the first SEED leaves WLEN, the part and whether the instance is configured, which decide the branch,
so the second takes the same one; where it loads, it loads the same window again. -/
theorem seedRepeatsItself : Obligations.SeedRepeatsItself := by
  intro n p s t hexec
  rcases execSeed_cases hexec with ⟨huncfg, rfl⟩ | ⟨hs, hshort, rfl⟩ | ⟨hs, hn, hlen, hmax, rfl⟩
  · exact ⟨_, _, execSeed_unconfigured huncfg, rfl, raise_resp s _, raise_resp (s.raise _) _⟩
  · exact ⟨_, _, execSeed_short hs hshort, rfl, raise_resp s _, raise_resp (s.raise _) _⟩
  · refine ⟨_, _, execSeed_loads (by simp) hn hlen hmax, ?_, complete_resp s _ _, complete_resp (s.complete _ _) _ _⟩
    exact loaded_loaded _ _ _

end Sys2Proof.Machine
end

section
/-! PROOFS. Commands on different instances (20_memory.md R52): each writes its own entry of the list of instances,
with a value that its own instance and the part decide. -/

namespace Sys2Proof.Machine

/-- Under the invariant every well-formed command completes. -/
theorem exec_completes {i : Instr} {s : State} (hwf : i.wf = true) (hinv : s.cur.eng.Inv s.part) :
    ∃ t, exec i s = .next t := by
  obtain ⟨t, -, -, hexec, -⟩ := exec_alike (s := s) (s' := s) ⟨hinv, hinv, rfl, rfl, rfl, rfl, rfl, rfl⟩ hwf
  exact ⟨t, hexec⟩

theorem select_of_getElem? {s : State} {k : Nat} {c : Inst} (h : s.insts[k]? = some c) :
    ∃ t, s.select k = some t ∧ t.cur = c := by
  cases hsel : s.select k with
  | none => exact nomatch (select_eq_none hsel).symm.trans h
  | some t => exact ⟨t, rfl, Option.some.inj ((select_cur hsel).symm.trans h)⟩

/-- What a command makes of an instance is the same wherever that instance stands: the value is read off a state that
holds it alone. -/
theorem execOn_sets {p : Part} {c : Inst} {i : Instr} (hwf : i.wf = true) (hinv : c.eng.Inv p) :
    ∃ c', ∀ (s : State) (k : Nat), s.part = p → s.insts[k]? = some c →
      ∃ t, execOn k i s = .next t ∧ t.part = p ∧ t.insts = s.insts.set k c' := by
  obtain ⟨alone, halone⟩ := exec_completes (s := (State.resetOf p 0).setCur c) hwf hinv
  refine ⟨alone.cur, fun s k hpart hc => ?_⟩
  obtain ⟨u, hsel, hcur⟩ := select_of_getElem? hc
  obtain ⟨hupart, -, -, hk⟩ := select_fields hsel
  have hsame : ((State.resetOf p 0).setCur c).cur = u.cur := hcur.symm
  have hexec : exec i u = .next (u.setCur alone.cur) := by
    rw [exec_in (hpart.symm.trans hupart.symm) hsame i, halone]
    rfl
  exact ⟨u.setCur alone.cur, by rw [execOn, hsel]; exact hexec, hupart.trans hpart,
    by rw [setCur_insts, select_insts hsel, hk]⟩

/-- Settles O37: each command sets its own entry to the same value in either order. -/
theorem instancesCommute : Obligations.InstancesCommute := by
  intro s a b i j hinv hwfi hwfj hab ha hb
  obtain ⟨ca, hseta⟩ := execOn_sets hwfi (hinv.insts _ (List.getElem_mem ha)).eng
  obtain ⟨cb, hsetb⟩ := execOn_sets hwfj (hinv.insts _ (List.getElem_mem hb)).eng
  have hata := List.getElem?_eq_getElem ha
  have hatb := List.getElem?_eq_getElem hb
  obtain ⟨t1, ht1, hpart1, hinsts1⟩ := hseta s a rfl hata
  obtain ⟨t2, ht2, -, hinsts2⟩ := hsetb t1 b hpart1 (by rw [hinsts1, List.getElem?_set_ne hab, hatb])
  obtain ⟨u1, hu1, hpartu, hinstsu⟩ := hsetb s b rfl hatb
  obtain ⟨u2, hu2, -, hinstsu2⟩ := hseta u1 a hpartu (by rw [hinstsu, List.getElem?_set_ne hab.symm, hata])
  exact ⟨t1, t2, u1, u2, ht1, ht2, hu1, hu2, by rw [hinsts2, hinsts1, hinstsu2, hinstsu, List.set_comm _ _ hab]⟩

end Sys2Proof.Machine
end

section
/-! PROOFS. What no step writes (20_memory.md R42), and the responses of a port: one per command, for its host, in
order (20_memory.md R50, R51). -/

namespace Sys2Proof.Machine

/-! ### The parameters -/

theorem step_part {s t : State} (h : step s = .next t) : t.part = s.part := by
  rcases step_effect h with ⟨-, -, -, hsame, -⟩ | ⟨-, rfl⟩
  · exact hsame.1
  · exact hostStep_part s

/-- Settles O38: the table is part of the parameters, which neither a command nor a host event writes. -/
theorem nothingWritesTableRom : Obligations.NothingWritesTableRom := fun _ _ h =>
  ⟨fun b => congrArg (tableRead · b) (step_part h), step_part h, step_insts_length h⟩

/-! ### Hosts on one port -/

/-- While a command is being accepted the port is not ready for another host's word. -/
theorem offer_of_not_owner {s : State} {f : Frame} {h : Nat} (hrx : s.cur.rx = some f) (hh : h ≠ s.cur.owner)
    (w : Word64) : s.offer h w = s := by
  have hbusy : s.cur.ready s.part h = false := by simp [Inst.ready, hrx, hh]
  rw [offer_eq, if_neg (by simp [hbusy])]

section
variable {i : Inst} {h : Nat} {r : Response} {rs : List Response} (hresp : i.resp = r :: rs)
include hresp

theorem take_of_host (hr : r.host = h) : i.take h = { i with resp := rs, taken := i.taken ++ [r] } := by
  rw [Inst.take, hresp]
  exact if_pos hr

theorem take_of_other_host (hr : r.host ≠ h) : i.take h = i := by
  rw [Inst.take, hresp]
  exact if_neg hr

end

/-- Settles O43: the port is not ready for another host, a command answers its owner, and only the host of the oldest
response takes it. -/
theorem portKeepsHostsApart : Obligations.PortKeepsHostsApart := by
  refine ⟨fun s f h w hrx hh => offer_of_not_owner hrx hh w, fun i s t hexec => ?_, fun i h r rs hresp => ?_⟩
  · obtain ⟨-, -, st, d, hans, -⟩ := exec_takesEffect hexec
    exact ⟨_, hans, rfl⟩
  · refine ⟨take_of_other_host hresp, fun hr => ?_⟩
    rw [take_of_host hresp hr]
    exact ⟨rfl, rfl⟩

/-! ### The order of the responses -/

/-- The responses of an instance since reset, oldest first, whether taken or still waiting. -/
def Inst.responses (i : Inst) : List Response := i.taken ++ i.resp

@[simp] theorem accept_responses (i : Inst) (h : Nat) (w : Word64) : (i.accept h w).responses = i.responses := by
  unfold Inst.accept
  split <;> rfl

/-- Taking a response moves it from the front of the queue to the end of the trace. -/
@[simp] theorem take_responses (i : Inst) (h : Nat) : (i.take h).responses = i.responses := by
  rcases take_cases i h with hsame | ⟨r, rs, hresp, hmove⟩
  · rw [hsame]
  · simp [hmove, Inst.responses, hresp]

theorem setCur_responses {s : State} {i : Inst} (h : i.responses = s.cur.responses) :
    (s.setCur i).insts.map Inst.responses = s.insts.map Inst.responses := by
  simp [State.insts, State.setCur, h]

/-- No host event but the assertion of `rst` adds, drops or reorders a response. -/
theorem hostEffect_responses {s t : State} {ev : HostEvent} (h : HostEffect s ev t) (hev : ev ≠ .rst true) :
    t.insts.map Inst.responses = s.insts.map Inst.responses := by
  cases h with
  | nothing => rfl
  | hold hsel => rw [select_insts hsel]
  | accept hsel => rw [setCur_responses (accept_responses _ _ _), select_insts hsel]
  | take hsel => rw [setCur_responses (take_responses _ _), select_insts hsel]
  | assertReset => exact absurd rfl hev
  | releaseReset => rfl

theorem hostStep_responses {s : State} (hnoreset : s.inputs.head? ≠ some (.rst true)) :
    s.hostStep.insts.map Inst.responses = s.insts.map Inst.responses := by
  rcases hostStep_effect s with hidle | ⟨ev, rest, hin, heffect⟩
  · rw [hidle]
  · have hkept := hostEffect_responses heffect fun hev => hnoreset (by rw [hin, hev]; rfl)
    exact hkept

/-- A command that ends appends its one response. -/
theorem commandEnds_responses {s t : State} (h : CommandEnds s t) :
    ∃ r, t.cur.responses = s.cur.responses ++ [r] := by
  obtain ⟨⟨-, -, -, -, -, -, htaken⟩, -, st, d, hans, -⟩ := h
  exact ⟨_, by rw [Inst.responses, htaken, hans, ← List.append_assoc]; rfl⟩

theorem getElem?_sel (s : State) : s.insts[s.sel]? = some s.cur := by simp [State.insts, State.sel]

/-- Settles O44: a command appends its response on the selected instance and leaves the others; a host event keeps the
responses of all. -/
theorem responsesKeepCommandOrder : Obligations.ResponsesKeepCommandOrder := by
  intro s t hstep hnoreset k i hi
  rcases step_effect hstep with ⟨-, -, hfetch, hends⟩ | ⟨hfetch, rfl⟩
  · have hsame := hends.1
    by_cases hk : k = s.sel
    · subst hk
      rw [getElem?_sel] at hi
      obtain rfl := Option.some.inj hi
      obtain ⟨r, hr⟩ := commandEnds_responses hends
      have hsel : t.sel = s.sel := congrArg List.length hsame.2.1
      exact ⟨t.cur, [r], hsel ▸ getElem?_sel t, hr, by simp [hfetch]⟩
    · exact ⟨i, [], (sameElsewhere_getElem? hsame hk).trans hi, by simp, by simp [hk]⟩
  · have hkept := congrArg (·[k]?) (hostStep_responses (hnoreset hfetch))
    simp only [List.getElem?_map, hi, Option.map_some, Option.map_eq_some_iff] at hkept
    obtain ⟨j, hj, hresponses⟩ := hkept
    exact ⟨j, [], hj, by rw [List.append_nil]; exact hresponses, by simp [hfetch]⟩

end Sys2Proof.Machine
end

section
/-! PROOFS. The decoder and the encoder are inverse to each other (30_encoding.md R62 to R70): a framed command decodes
to a term exactly when its words are the encoding of that well-formed term. -/

namespace Sys2Proof

open Sys2Proof.Machine

/-! ### Command words from their fields -/

variable {c : Word64} {p : List Word64} {i : Instr}

/-- A word of format W or S with RSV zero is made of OP and ARG alone (R62, R63). -/
theorem eq_wordOfArg {op : BitVec 4} (hop : opField c = op) (hrsv : rsvField c = 0) :
    c = wordOfArg op (argField c) := by
  rw [opField_eq_iff] at hop
  rw [rsv_zero_iff] at hrsv
  rw [← BitVec.toNat_inj, wordOfArg_toNat, argField_toNat]
  omega

/-- A word of format B with RSV and RSVB zero is made of OP, E and L alone (R64). -/
theorem eq_wordOfBytes {op : BitVec 4} (hop : opField c = op) (hrsv : rsvField c = 0 ∧ rsvbField c = 0) :
    c = wordOfBytes op (leavingField c) (enteringField c) := by
  rw [opField_eq_iff] at hop
  rw [rsv_rsvb_zero_iff] at hrsv
  rw [← BitVec.toNat_inj, wordOfBytes_toNat, leavingField_toNat, enteringField_toNat]
  omega

/-! ### Framed commands -/

/-- The encoding of a well-formed command is a frame: the command word announces the payload words that follow it, and
they decode to the command. -/
theorem encode_frame (hwf : i.wf = true) :
    ∃ c p, encode i = c :: p ∧ p.length = payloadWordsAfter c ∧ decodeFrame c p = .ok i := by
  cases i with
  | config wl => exact ⟨_, _, rfl, by simp [payloadWordsAfter_wordOfArg], by simp [decodeFrame]⟩
  | seed n payload =>
    have hlen : payload.length = payloadWordCount n.toNat := by simpa [Instr.wf] using hwf
    exact ⟨_, _, rfl, by simp [payloadWordsAfter_wordOfArg, hlen], by simp [decodeFrame]⟩
  | rotate l e => exact ⟨_, _, rfl, by simp [payloadWordsAfter_wordOfBytes], by simp [decodeFrame]⟩
  | rotateChecked l e => exact ⟨_, _, rfl, by simp [payloadWordsAfter_wordOfBytes], by simp [decodeFrame]⟩

/-- A frame decodes to a command exactly when its words are that command's encoding, padding and reserved bits
included. -/
theorem decodeFrame_ok_iff_encode (hlen : p.length = payloadWordsAfter c) :
    decodeFrame c p = .ok i ↔ i.wf = true ∧ encode i = c :: p := by
  constructor
  · intro h
    have hnone : opField c ≠ 2#4 → p = [] := fun hop => by simpa [payloadWordsAfter, hop] using hlen
    rcases decodeFrame_ok h with ⟨hop, hrsv, rfl⟩ | ⟨hop, hrsv, rfl⟩ | ⟨hop, hrsv, rfl⟩ | ⟨hop, hrsv, rfl⟩
    · exact ⟨rfl, by rw [encode, ← eq_wordOfArg hop hrsv, hnone (by simp [hop])]⟩
    · exact ⟨by simpa [Instr.wf, payloadWordsAfter, hop] using hlen, by rw [encode, ← eq_wordOfArg hop hrsv]⟩
    · exact ⟨rfl, by rw [encode, ← eq_wordOfBytes hop hrsv, hnone (by simp [hop])]⟩
    · exact ⟨rfl, by rw [encode, ← eq_wordOfBytes hop hrsv, hnone (by simp [hop])]⟩
  · rintro ⟨hwf, henc⟩
    obtain ⟨c', p', henc', -, hdec⟩ := encode_frame hwf
    obtain ⟨rfl, rfl⟩ := List.cons.inj (henc'.symm.trans henc)
    exact hdec

/-! ### Sequences of words -/

/-- The decoder takes the first frame and leaves the words after it (R67). -/
theorem decode_of_frame (hlen : p.length = payloadWordsAfter c) (h : decodeFrame c p = .ok i) (rest : List Word64) :
    decode (c :: p ++ rest) = .ok (i, rest) := by
  have henough : ¬ (p ++ rest).length < payloadWordsAfter c := by rw [List.length_append]; omega
  rw [List.cons_append, decode, List.take_left' hlen, h, List.drop_left' hlen]
  exact if_neg henough

/-- Whatever the decoder accepts is a frame and the words after it. -/
theorem frame_of_decode {ws rest : List Word64} (h : decode ws = .ok (i, rest)) :
    ∃ c p, ws = c :: p ++ rest ∧ p.length = payloadWordsAfter c ∧ decodeFrame c p = .ok i := by
  cases ws with
  | nil => cases h
  | cons c ws =>
    rw [decode] at h
    split at h
    · cases h
    · next j hdec =>
      split at h
      · cases h
      · next henough =>
        cases h
        exact ⟨c, _, by rw [List.cons_append, List.take_append_drop], by rw [List.length_take]; omega, hdec⟩

/-- Settles O2: the encoding of a well-formed command is a frame that decodes to it. -/
theorem decodeInvertsEncode : Obligations.DecodeInvertsEncode := by
  intro i rest hwf
  obtain ⟨c, p, henc, hlen, hdec⟩ := encode_frame hwf
  rw [henc]
  exact decode_of_frame hlen hdec rest

/-- Settles O3: the words decoded are a frame, and a frame that decodes is an encoding. -/
theorem encodeInvertsDecode : Obligations.EncodeInvertsDecode := by
  intro ws rest i h
  obtain ⟨c, p, rfl, hlen, hdec⟩ := frame_of_decode h
  obtain ⟨hwf, henc⟩ := (decodeFrame_ok_iff_encode hlen).1 hdec
  exact ⟨hwf, by rw [henc]⟩

/-- Settles O1, by running the decoder. -/
theorem sampleWordsDecode : Obligations.SampleWordsDecode :=
  ⟨by decide, by decide, by decide, by decide, by decide, by decide⟩

/-! ### The match and mask table -/

/-- Masking bits 31..0 away leaves OP and RSV. -/
theorem opField_rsvField_iff_mask (op : BitVec 4) :
    c &&& 0xFFFFFFFF00000000 = wordOfArg op 0#32 ↔ opField c = op ∧ rsvField c = 0 := by
  have hmask : c &&& (0xFFFFFFFF00000000 : Word64) = c >>> 32 <<< 32 := (BitVec.shiftLeft_ushiftRight (n := 32)).symm
  have hc := c.isLt
  have hop := op.isLt
  rw [hmask, ← BitVec.toNat_inj, opField_eq_iff, rsv_zero_iff, wordOfArg_toNat, BitVec.toNat_shiftLeft,
    BitVec.toNat_ushiftRight, Nat.shiftLeft_eq, Nat.shiftRight_eq_div_pow, BitVec.toNat_ofNat]
  omega

/-- Masking bits 15..0 away leaves OP, RSV and RSVB. -/
theorem opField_rsvs_iff_mask (op : BitVec 4) :
    c &&& 0xFFFFFFFFFFFF0000 = wordOfBytes op 0#8 0#8 ↔ opField c = op ∧ rsvField c = 0 ∧ rsvbField c = 0 := by
  have hmask : c &&& (0xFFFFFFFFFFFF0000 : Word64) = c >>> 16 <<< 16 := (BitVec.shiftLeft_ushiftRight (n := 16)).symm
  have hc := c.isLt
  have hop := op.isLt
  rw [hmask, ← BitVec.toNat_inj, opField_eq_iff, rsv_rsvb_zero_iff, wordOfBytes_toNat, BitVec.toNat_shiftLeft,
    BitVec.toNat_ushiftRight, Nat.shiftLeft_eq, Nat.shiftRight_eq_div_pow, BitVec.toNat_ofNat]
  omega

/-- The opcode map (R65): which command words decode, and to what. -/
theorem decodeFrame_ok_iff_fields : decodeFrame c p = .ok i ↔
    (opField c = 1#4 ∧ rsvField c = 0 ∧ i = .config (argField c)) ∨
    (opField c = 2#4 ∧ rsvField c = 0 ∧ i = .seed (argField c) p) ∨
    (opField c = 3#4 ∧ (rsvField c = 0 ∧ rsvbField c = 0) ∧ i = .rotate (leavingField c) (enteringField c)) ∨
    (opField c = 4#4 ∧ (rsvField c = 0 ∧ rsvbField c = 0) ∧
      i = .rotateChecked (leavingField c) (enteringField c)) := by
  refine ⟨decodeFrame_ok, ?_⟩
  rintro (⟨hop, hrsv, rfl⟩ | ⟨hop, hrsv, rfl⟩ | ⟨hop, hrsv, rfl⟩ | ⟨hop, hrsv, rfl⟩) <;> simp [decodeFrame, hop, hrsv]

/-- Settles O4: the mask of a row keeps the fields that the opcode map looks at. -/
theorem opcodeRowsSelectMnemonic : Obligations.OpcodeRowsSelectMnemonic := fun c p =>
  ⟨(opField_rsvField_iff_mask 1#4).trans (by simp [decodeFrame_ok_iff_fields]),
    (opField_rsvField_iff_mask 2#4).trans (by simp [decodeFrame_ok_iff_fields]),
    (opField_rsvs_iff_mask 3#4).trans (by simp [decodeFrame_ok_iff_fields]),
    (opField_rsvs_iff_mask 4#4).trans (by simp [decodeFrame_ok_iff_fields])⟩

end Sys2Proof
end

section
/-! PROOFS. The length of a command and the bytes that travel in payload words (00_scope.md R13, 30_encoding.md R66,
R67), and the words of the assembler (R75). -/

namespace Sys2Proof.Machine

/-! ### How many payload words -/

/-- `q` payload words carry `n` bytes exactly when there is room for them: P is the least such `q` (R13, R63). -/
theorem payloadWordCount_le_iff {n q : Nat} : payloadWordCount n ≤ q ↔ n ≤ q * 8 := by
  rw [payloadWordCount, ceilDiv]
  omega

/-- Settles O6: the command word's opcode and ARG decide the length, through the least number of words with room. -/
theorem commandLengthFromFirstWord : Obligations.CommandLengthFromFirstWord := by
  intro c
  have hop : opField c = 2#4 ↔ c.toNat / 2 ^ 60 = 2 := opField_eq_iff c 2#4
  refine ⟨fun hne => ?_, fun heq => ?_⟩
  · rw [commandLength, payloadWordsAfter, if_neg (mt hop.1 hne)]
  · refine ⟨payloadWordCount (c.toNat % 2 ^ 32), ?_, payloadWordCount_le_iff.1 le_rfl,
      fun r => payloadWordCount_le_iff.2⟩
    rw [commandLength, payloadWordsAfter, if_pos (hop.2 heq), argField_toNat]

/-! ### The bytes of payload words -/

theorem wordByte_eq_ofNat (p : Word64) (j : Nat) : wordByte p j = BitVec.ofNat 8 (p.toNat / 2 ^ (8 * j)) := by
  rw [← BitVec.toNat_inj, wordByte, BitVec.extractLsb'_toNat, Nat.shiftRight_eq_div_pow, BitVec.toNat_ofNat]

/-- Byte `8k + j` of the payload is byte `j` of word `k` (R66). -/
theorem payloadBytes_getElem? (payload : List Word64) (k : Nat) {j : Nat} (hj : j < 8) :
    (payloadBytes payload)[8 * k + j]? = payload[k]?.map (wordByte · j) := by
  induction payload generalizing k with
  | nil => rfl
  | cons p ps ih =>
    rw [payloadBytes_cons]
    cases k with
    | zero =>
      rw [List.getElem?_append_left (by rw [wordBytes_length]; omega)]
      simp [wordBytes, hj]
    | succ k =>
      have hnext : 8 * (k + 1) + j - 8 = 8 * k + j := by omega
      rw [List.getElem?_append_right (by rw [wordBytes_length]; omega), wordBytes_length, hnext, ih,
        List.getElem?_cons_succ]

theorem seedBytes_getElem? {n : Word32} {i : Nat} (hi : i < n.toNat) (payload : List Word64) :
    (seedBytes n payload)[i]? = (payloadBytes payload)[i]? := List.getElem?_take_of_lt hi

/-- Payloads that agree in their first N bytes carry the same input bytes. -/
theorem seedBytes_congr {n : Word32} {p q : List Word64}
    (h : ∀ i, i < n.toNat → (payloadBytes p)[i]? = (payloadBytes q)[i]?) : seedBytes n p = seedBytes n q := by
  refine List.ext_getElem? fun i => ?_
  by_cases hi : i < n.toNat
  · rw [seedBytes_getElem? hi, seedBytes_getElem? hi, h i hi]
  · have hpast := Nat.not_lt.1 hi
    rw [seedBytes, seedBytes, List.getElem?_take_eq_none hpast, List.getElem?_take_eq_none hpast]

/-- SEED looks at nothing of its payload but the input bytes (R66). -/
theorem execSeed_congr {n : Word32} {p q : List Word64} (h : seedBytes n p = seedBytes n q) (s : State) :
    execSeed n p s = execSeed n q s := by
  rw [execSeed, execSeed, h]

/-- Settles O7: where each byte stands, and that SEED depends on the first N of them only. -/
theorem payloadIsLittleEndian : Obligations.PayloadIsLittleEndian := by
  refine ⟨fun payload k j p hp hj => ?_, fun n payload i hi => seedBytes_getElem? hi payload,
    fun n p q s _ _ h => execSeed_congr (seedBytes_congr h) s⟩
  rw [payloadBytes_getElem? payload k hj, hp, ← wordByte_eq_ofNat]
  rfl

/-! ### Packing bytes into payload words -/

/-- A packed word holds the bytes in order and 0 where there is none: as a number it has them as its digits to base
2^8. -/
theorem wordByte_packWord (bs : List Byte) {j : Nat} (hj : j < 8) : wordByte (packWord bs) j = bs.getD j 0 := by
  have hbyte : ∀ k, (bs.getD k 0).toNat < 2 ^ 8 := fun k => (bs.getD k 0).isLt
  have h0 := hbyte 0; have h1 := hbyte 1; have h2 := hbyte 2; have h3 := hbyte 3
  have h4 := hbyte 4; have h5 := hbyte 5; have h6 := hbyte 6; have h7 := hbyte 7
  rw [wordByte_eq_ofNat, ← BitVec.toNat_inj, BitVec.toNat_ofNat]
  simp only [packWord, append_toNat]
  interval_cases j <;> omega

theorem packWords_length (bs : List Byte) : (packWords bs).length = payloadWordCount bs.length := by
  simp [packWords]

/-- Every byte of packed payload words is the byte of the list at its place, or padding of 0 (R66, R75). -/
theorem payloadBytes_packWords (bs : List Byte) {i : Nat} (hi : i < (payloadBytes (packWords bs)).length) :
    (payloadBytes (packWords bs))[i]? = some (bs.getD i 0) := by
  rw [payloadBytes_length, packWords_length] at hi
  have hword : (packWords bs)[i / 8]? = some (packWord (bs.drop (8 * (i / 8)))) := by
    rw [packWords, List.getElem?_map, List.getElem?_range (by omega)]
    rfl
  have hplace : 8 * (i / 8) + i % 8 = i := Nat.div_add_mod i 8
  have hj : i % 8 < 8 := Nat.mod_lt i (by omega)
  have hbyte := payloadBytes_getElem? (packWords bs) (i / 8) hj
  rw [hword, hplace, Option.map_some, wordByte_packWord _ hj] at hbyte
  rw [hbyte, List.getD_eq_getElem?_getD, List.getElem?_drop, hplace, List.getD_eq_getElem?_getD]

/-- The assembler announces N as the number of bytes listed, and pads to whole words (R75). -/
theorem seedOf_wf {bs : List Byte} (h : bs.length < 2 ^ 32) : (seedOf bs).wf = true := by
  rw [seedOf, Instr.wf, packWords_length, BitVec.toNat_ofNat, Nat.mod_eq_of_lt h, beq_self_eq_true]

/-- Packed payload words carry exactly the bytes packed. -/
theorem seedBytes_packWords {bs : List Byte} (h : bs.length < 2 ^ 32) :
    seedBytes (BitVec.ofNat 32 bs.length) (packWords bs) = bs := by
  have hn : (BitVec.ofNat 32 bs.length).toNat = bs.length := by rw [BitVec.toNat_ofNat, Nat.mod_eq_of_lt h]
  have hlen := (seedBytes_length_wf (seedOf_wf h)).trans hn
  have hroom : bs.length ≤ (payloadBytes (packWords bs)).length := hlen ▸ List.length_take_le' _ _
  refine List.ext_getElem hlen fun i hs hi => Option.some.inj ?_
  rw [← List.getElem?_eq_getElem hs, seedBytes_getElem? (hn.symm ▸ hi), payloadBytes_packWords bs (hi.trans_le hroom),
    List.getD_eq_getElem _ _ hi]

/-! ### The words of the assembler -/

theorem wordOfArg_eq_ofNat (op : BitVec 4) {a : Nat} (ha : a < 2 ^ 32) :
    wordOfArg op (BitVec.ofNat 32 a) = BitVec.ofNat 64 (op.toNat * 2 ^ 60 + a) := by
  have hop := op.isLt
  rw [← BitVec.toNat_inj, wordOfArg_toNat, BitVec.toNat_ofNat, BitVec.toNat_ofNat]
  omega

theorem wordOfBytes_eq_ofNat (op : BitVec 4) {l e : Nat} (hl : l < 2 ^ 8) (he : e < 2 ^ 8) :
    wordOfBytes op (BitVec.ofNat 8 l) (BitVec.ofNat 8 e) = BitVec.ofNat 64 (op.toNat * 2 ^ 60 + e * 2 ^ 8 + l) := by
  have hop := op.isLt
  rw [← BitVec.toNat_inj, wordOfBytes_toNat, BitVec.toNat_ofNat, BitVec.toNat_ofNat, BitVec.toNat_ofNat]
  omega

/-- Settles O8: the range checks are the assembler's own; the words follow from the encoder's as numbers and from what
packed payload words carry. -/
theorem assemblerAcceptsExactlyInRange : Obligations.AssemblerAcceptsExactlyInRange := by
  refine ⟨fun _ => rfl, fun _ _ => rfl, fun _ _ => rfl, fun _ => rfl, fun _ => rfl, fun w hw => ?_,
    fun l e hl he => ⟨?_, ?_⟩, fun bs hbs => ⟨packWords bs, rfl, seedOf_wf hbs, ?_, seedBytes_packWords hbs,
      fun j hj hlt => ?_⟩⟩
  · rw [encode, wordOfArg_eq_ofNat _ hw]; rfl
  · rw [encode, wordOfBytes_eq_ofNat _ hl he]; rfl
  · rw [encode, wordOfBytes_eq_ofNat _ hl he]; rfl
  · rw [seedOf, encode, wordOfArg_eq_ofNat _ hbs]; rfl
  · rw [payloadBytes_packWords bs hlt, List.getD_eq_default _ _ hj]

end Sys2Proof.Machine
end

section
/-! PROOFS. The response word (30_encoding.md R73, R74), and the step that runs an accepted command and answers it
(R60, R67). -/

namespace Sys2Proof.Machine

/-! ### The response word -/

/-- A code names the status it is the code of, and no other (R74). -/
theorem statusCode_of_statusOfCode {code : BitVec 4} {st : Status} (h : statusOfCode code = some st) :
    statusCode st = code := by
  simpa using List.find?_some h

/-- The response decoder accepts nothing but response words: the reserved bits and the code are looked at (R73, R74). -/
theorem responseWord_of_decodeResponse {r : Word64} {st : Status} {data : Word32}
    (h : decodeResponse r = some (st, data)) : r = responseWord st data := by
  rw [decodeResponse] at h
  split at h
  · next hzero =>
    obtain ⟨st', hst, heq⟩ := Option.map_eq_some_iff.1 h
    cases heq
    have hcode := congrArg BitVec.toNat (statusCode_of_statusOfCode hst)
    have hzero := congrArg BitVec.toNat hzero
    rw [BitVec.extractLsb'_toNat, Nat.shiftRight_eq_div_pow] at hcode hzero
    rw [← BitVec.toNat_inj, responseWord_toNat, hcode, BitVec.extractLsb'_toNat]
    rw [BitVec.toNat_ofNat] at hzero
    have hr := r.isLt
    omega
  · cases h

/-- Settles O9: the word as a number, and the decoder inverse to it. -/
theorem responseWordLayout : Obligations.ResponseWordLayout := by
  refine ⟨responseWord_toNat, rfl, fun r st data => ⟨responseWord_of_decodeResponse, ?_⟩⟩
  rintro rfl
  exact decodeResponse_responseWord st data

/-! ### The step that runs an accepted command -/

section
variable {s : State} {c : Word64} {p : List Word64} {i : Instr} (hholds : s.Holds c p)
include hholds

theorem fetch_of_holds : s.fetch = some (decodeFrame c p, s.consumed) := by
  obtain ⟨hrst, hrx, -⟩ := hholds
  rw [fetch_of_rx hrst hrx rfl]

/-- An accepted command that decodes runs, its words consumed. -/
theorem step_of_decoded (h : decodeFrame c p = .ok i) : step s = exec i s.consumed := by
  rw [step, fetch_of_holds hholds, h]

/-- An accepted command that does not decode ends in E_ILLEGAL. -/
theorem step_of_rejected {r : Reject} (h : decodeFrame c p = .error r) :
    step s = .next (s.consumed.raise .eIllegal) := by
  rw [step, fetch_of_holds hholds, h]
  rfl

/-- The words accepted decode to a command exactly when they are the encoding of that well-formed command. -/
theorem decode_iff_encode_of_holds : decodeFrame c p = .ok i ↔ i.wf = true ∧ encode i = c :: p := by
  obtain ⟨-, -, hlen⟩ := hholds
  exact decodeFrame_ok_iff_encode hlen

end

/-- Settles O39: the words of a frame decode to the command they encode. -/
theorem stepRunsDecodedCommand : Obligations.StepRunsDecodedCommand := by
  intro s c p i hholds
  refine ⟨step_of_decoded hholds, fun hwf henc => step_of_decoded hholds ?_⟩
  exact (decode_iff_encode_of_holds hholds).2 ⟨hwf, henc⟩

theorem tablePayload_length (nbits w : Nat) :
    (tablePayload nbits w).length = payloadWordsAfter (tableWord nbits w 0) := by
  simp [tablePayload]

/-- The selected port holds a table word placed there. -/
theorem withFetchWord_holds (s : State) (nbits w : Nat) :
    (s.withFetchWord nbits w).Holds (tableWord nbits w 0) (tablePayload nbits w) :=
  ⟨rfl, rfl, tablePayload_length nbits w⟩

/-- Settles O40: a table word placed on the port is an accepted command like any other. -/
theorem fetchWordRunsNext : Obligations.FetchWordRunsNext := by
  intro s nbits w i h
  have hholds := withFetchWord_holds s nbits w
  rw [decodeTableWord] at h
  split at h
  · next j hdec =>
    cases h
    exact ⟨((decode_iff_encode_of_holds hholds).1 hdec).1, step_of_decoded hholds hdec⟩
  · cases h

/-! ### Its response -/

/-- The layout of a response word by division (R73). -/
theorem responseWord_fields (st : Status) (data : Word32) :
    (responseWord st data).toNat / 2 ^ 36 = 0 ∧ (responseWord st data).toNat / 2 ^ 32 = (statusCode st).toNat ∧
      (responseWord st data).toNat % 2 ^ 32 = data.toNat := by
  have hcode := (statusCode st).isLt
  have hdata := data.isLt
  rw [responseWord_toNat]
  omega

/-- DATA is 0 for CONFIG and for every error, and HASH as the command leaves it for the others (R73). Which case it is
shows in the opcode `op`. -/
theorem registerEffect_data {p : Part} {e e' : Engine} {i : Instr} {st : Status} {d : Word32} {op : Nat}
    (h : RegisterEffect p e i e' st d) (hop : op = 1 ↔ ∃ wl, i = .config wl) :
    (st = .ok → d = if op = 1 then 0 else e'.hash) ∧ (st ≠ .ok → d = 0) := by
  cases h with
  | error hst => exact ⟨fun hok => absurd hok hst, fun _ => rfl⟩
  | config => simp [hop]
  | seed => simp [hop]
  | rotate => simp [hop]
  | rotateChecked => simp [hop]

/-- The opcode of CONFIG is 1, and that of no other command (R65). -/
theorem opcode_one_iff_config {c : Word64} {p : List Word64} {i : Instr} (h : decodeFrame c p = .ok i) :
    c.toNat / 2 ^ 60 = 1 ↔ ∃ wl, i = .config wl := by
  rw [← opField_toNat]
  rcases decodeFrame_ok h with ⟨hop, -, rfl⟩ | ⟨hop, -, rfl⟩ | ⟨hop, -, rfl⟩ | ⟨hop, -, rfl⟩ <;> simp [hop]

/-- Settles O28: an accepted command that decodes completes with the response of its effect, any other with
E_ILLEGAL. -/
theorem everyCommandAnswersOnce : Obligations.EveryCommandAnswersOnce := by
  intro s c p hholds hinv
  cases hdec : decodeFrame c p with
  | error r =>
    exact ⟨_, .eIllegal, 0, step_of_rejected hholds hdec, rfl, by simp, fun _ => rfl, responseWord_fields _ _⟩
  | ok i =>
    obtain ⟨hwf, -⟩ := (decode_iff_encode_of_holds hholds).1 hdec
    obtain ⟨t, hexec⟩ := exec_completes (s := s.consumed) hwf hinv
    obtain ⟨-, -, st, d, hans, heffect⟩ := exec_takesEffect hexec
    obtain ⟨hok, herr⟩ := registerEffect_data heffect (opcode_one_iff_config hdec)
    exact ⟨t, st, d, (step_of_decoded hholds hdec).trans hexec, hans, hok, herr, responseWord_fields st d⟩

end Sys2Proof.Machine
end

section
/-! PROOFS. A command sent word by word (30_encoding.md R60, R67, 70_reset_and_hazards.md R139): each step accepts the
next word, until the last one is there and the command runs. -/

namespace Sys2Proof.Machine

/-! ### Selecting an instance -/

/-- Selecting the selected instance changes nothing. -/
theorem select_sel (s : State) : s.select s.sel = some s := by
  have hbelow : s.insts.take s.below.length = s.below := List.take_left
  have habove : s.insts.drop (s.below.length + 1) = s.above := by
    rw [State.insts, ← List.drop_drop, List.drop_left, List.drop_one, List.tail_cons]
  rw [State.select, getElem?_sel, State.sel, hbelow, habove]

/-- Which host events are still to come makes no difference to the selection. -/
theorem select_withInputs {s t : State} {k : Nat} (h : s.select k = some t) (ins : List HostEvent) :
    ({ s with inputs := ins } : State).select k = some { t with inputs := ins } := by
  unfold State.select at h ⊢
  simp only [State.insts] at h ⊢
  split at h
  · cases h
  · next i hi =>
    cases h
    rfl

/-! ### While a command is being sent -/

/-- `t` while host `h` sends a command: the selected port has accepted the words of `f`, and `ins` is still to come. -/
def State.receiving (t : State) (h : Nat) (f : Frame) (ins : List HostEvent) : State :=
  { t with inputs := ins, cur := { t.cur with owner := h, rx := some f } }

theorem fetch_of_missing {s : State} {f : Frame} (hrx : s.cur.rx = some f) (hm : f.missing ≠ 0) : s.fetch = none := by
  cases hfetch : s.fetch with
  | none => rfl
  | some r =>
    obtain ⟨g, -, hg, hgm, -⟩ := fetch_eq_some hfetch
    obtain rfl := Option.some.inj (hrx.symm.trans hg)
    exact absurd hgm hm

/-- With no command waiting, a step offers the word a host sends next. -/
theorem step_of_send {s t : State} {h k : Nat} {w : Word64} {ins : List HostEvent} (hfetch : s.fetch = none)
    (hin : s.inputs = .send h k w :: ins) (hsel : s.select k = some t) :
    step s = .next (({ t with inputs := ins } : State).offer h w) := by
  rw [step, hfetch, State.hostStep, hin]
  simp only [State.apply, select_withInputs hsel]

/-- A header starts a frame that waits for its payload, when there is room for the response (R139). -/
theorem offer_header {t : State} (hrst : t.rst = false) (hrx : t.cur.rx = none)
    (hroom : t.cur.resp.length < t.part.respDepth) (h : Nat) (c : Word64) (ins : List HostEvent) :
    ({ t with inputs := ins } : State).offer h c =
      t.receiving h { header := c, payload := [], missing := payloadWordsAfter c } ins := by
  have hready : t.cur.ready t.part h = true := by simp [Inst.ready, hrx, hroom]
  have haccept : t.cur.accept h c =
      { t.cur with owner := h, rx := some { header := c, payload := [], missing := payloadWordsAfter c } } := by
    rw [Inst.accept, hrx]
  rw [offer_eq, if_pos ⟨hrst, hready⟩, haccept]
  rfl

/-- A payload word from the sender of the command joins the frame. -/
theorem step_receiving {t : State} (hrst : t.rst = false) (h : Nat) (c w : Word64) (p : List Word64) (n : Nat)
    (ins : List HostEvent) :
    step (t.receiving h { header := c, payload := p, missing := n + 1 } (.send h t.sel w :: ins)) =
      .next (t.receiving h { header := c, payload := p ++ [w], missing := n } ins) := by
  rw [step_of_send (fetch_of_missing rfl (Nat.succ_ne_zero n)) rfl (select_sel _), offer_eq]
  exact congrArg _ (if_pos ⟨hrst, by simp [State.receiving, Inst.ready]⟩)

/-- All payload words are accepted, one a step. -/
theorem run_receiving {t : State} (hrst : t.rst = false) (h : Nat) (c : Word64) (p ws : List Word64)
    (ins : List HostEvent) :
    core.run ws.length
        (t.receiving h { header := c, payload := p, missing := ws.length } (ws.map (.send h t.sel) ++ ins)) =
      .next (t.receiving h { header := c, payload := p ++ ws, missing := 0 } ins) := by
  induction ws generalizing p with
  | nil => rw [List.append_nil]; rfl
  | cons w ws ih =>
    have hword := step_receiving hrst h c w p ws.length (ws.map (.send h t.sel) ++ ins)
    have hrest := ih (p ++ [w])
    rw [List.append_assoc] at hrest
    exact (run_succ_of_next hword).trans hrest

/-- The words of the command taken, what is left is the state the command found, with its sender the port's owner. -/
theorem receiving_consumed {t : State} (hrx : t.cur.rx = none) (h : Nat) (f : Frame) (ins : List HostEvent) :
    (t.receiving h f ins).consumed = { t with inputs := ins, cur := { t.cur with owner := h } } := by
  simp [State.receiving, State.consumed, hrx]

/-- Settles O41: one step for the header, one for each payload word, and one that runs the command. -/
theorem sentCommandExecutesOnce : Obligations.SentCommandExecutesOnce := by
  intro s t i h k rest hwf hrst hfetch hsel hrx hroom hin
  obtain ⟨c, p, henc, hlen, hdec⟩ := encode_frame hwf
  obtain ⟨hpart, hrst', -, rfl⟩ := select_fields hsel
  rw [hrst] at hrst'
  rw [henc, List.map_cons, List.cons_append] at hin
  have hheader : step s = .next (t.receiving h { header := c, payload := [], missing := p.length }
      (p.map (.send h t.sel) ++ rest)) := by
    rw [step_of_send hfetch hin hsel, offer_header hrst' hrx (hpart ▸ hroom), hlen]
  have hpayload := run_receiving hrst' h c [] p rest
  have hrun : step (t.receiving h { header := c, payload := p, missing := 0 } rest) =
      exec i { t with inputs := rest, cur := { t.cur with owner := h } } := by
    have hholds : (t.receiving h { header := c, payload := p, missing := 0 } rest).Holds c p := ⟨hrst', rfl, hlen⟩
    rw [step_of_decoded hholds hdec, receiving_consumed hrx]
  rw [henc, List.length_cons]
  exact (run_succ_of_next hheader).trans ((run_add hpayload).trans ((run_one _).trans hrun))

end Sys2Proof.Machine
end

section
/-! PROOFS. CONFIG (40_configure.md R80 to R82): the word that carries it, what it does for each WL, and that WLEN has
no other writer. -/

namespace Sys2Proof.Machine

/-! ### How a command ends in an error -/

/-- A command that only raises an error ends in it (60_exceptions.md R111). -/
theorem endsIn_of_raise {i : Instr} {s : State} {st : Status} (h : exec i s = .next (s.raise st)) : EndsIn i s st :=
  ⟨_, h, raise_eng s st, raise_rx s st, ⟨rfl, rfl, rfl, rfl, rfl, rfl, rfl⟩, raise_resp s st⟩

/-- An accepted command word that decodes to no instruction ends in E_ILLEGAL (R116). -/
theorem endsIllegal_of_not_decoded {s : State} {c : Word64} {p : List Word64} (hholds : s.Holds c p)
    (h : ∀ i, decodeFrame c p ≠ .ok i) : s.EndsIllegal := by
  cases hdec : decodeFrame c p with
  | ok i => exact absurd hdec (h i)
  | error r =>
    exact ⟨_, step_of_rejected hholds hdec, rfl, rfl, ⟨rfl, rfl, rfl, rfl, rfl, rfl, rfl⟩, raise_resp s.consumed _⟩

/-! ### The CONFIG word -/

/-- ARG is the low half of the command word (30_encoding.md R61). -/
theorem argField_eq_ofNat (c : Word64) : argField c = BitVec.ofNat 32 c.toNat := by
  rw [← BitVec.toNat_inj, argField_toNat, BitVec.toNat_ofNat]

section
variable {c : Word64} {p : List Word64} (hop : c.toNat / 2 ^ 60 = 1)
include hop

theorem decodeFrame_config (hrsv : c.toNat / 2 ^ 32 % 2 ^ 28 = 0) :
    decodeFrame c p = .ok (.config (BitVec.ofNat 32 c.toNat)) :=
  decodeFrame_ok_iff_fields.2 (.inl ⟨(opField_eq_iff c 1#4).2 hop, (rsv_zero_iff c).2 hrsv,
    congrArg Instr.config (argField_eq_ofNat c).symm⟩)

/-- A CONFIG word with a reserved bit set decodes to nothing (R70). -/
theorem decodeFrame_config_reserved (hrsv : c.toNat / 2 ^ 32 % 2 ^ 28 ≠ 0) (i : Instr) : decodeFrame c p ≠ .ok i := by
  intro hdec
  obtain ⟨wl, rfl⟩ := (opcode_one_iff_config hdec).1 hop
  obtain ⟨-, hzero, -⟩ | ⟨-, -, ⟨⟩⟩ | ⟨-, -, ⟨⟩⟩ | ⟨-, -, ⟨⟩⟩ := decodeFrame_ok hdec
  exact hrsv ((rsv_zero_iff c).1 hzero)

end

/-! ### CONFIG for each WL -/

section
variable {wl : Word32} {s : State}

theorem execConfig_illegal_length (h : wl.toNat = 0 ∨ s.part.wmax < wl.toNat) :
    execConfig wl s = .next (s.raise .eConfig) := by
  rw [execConfig, if_pos (h.imp_left BitVec.eq_of_toNat_eq)]

theorem execConfig_legal_length (hpos : 1 ≤ wl.toNat) (hmax : wl.toNat ≤ s.part.wmax) :
    execConfig wl s = .next (s.complete (s.cur.eng.configured wl) 0) := by
  have hlegal : ¬ (wl = 0 ∨ s.part.wmax < wl.toNat) := by
    rintro (rfl | hlong)
    · exact absurd hpos (by decide)
    · exact absurd hmax (Nat.not_le.2 hlong)
  rw [execConfig, if_neg hlegal]

/-- A CONFIG that answered OK had a legal WL and wrote the registers of R80. -/
theorem configured_of_ok {t : State} {d : Word32} (h : exec (.config wl) s = .next t) (hans : s.Answers t .ok d) :
    1 ≤ wl.toNat ∧ wl.toNat ≤ s.part.wmax ∧ t.cur.eng = s.cur.eng.configured wl := by
  obtain ⟨-, -, st, d', hans', heffect⟩ := exec_takesEffect h
  obtain ⟨rfl, -⟩ := answers_unique hans hans'
  generalize t.cur.eng = e' at heffect ⊢
  cases heffect with
  | error hst => exact absurd rfl hst
  | config hpos hmax => exact ⟨hpos, hmax, rfl⟩

end

/-- Settles O14: the word by its fields, then the two branches of CONFIG. -/
theorem configSetsWindowLength : Obligations.ConfigSetsWindowLength := by
  refine ⟨fun c p s hholds hop => ⟨fun hrsv => ?_, fun hrsv => ?_⟩,
    fun wl s => ⟨fun hillegal => ?_, fun hpos hmax => ?_⟩⟩
  · exact endsIllegal_of_not_decoded hholds (decodeFrame_config_reserved hop hrsv)
  · exact step_of_decoded hholds (decodeFrame_config hop hrsv)
  · exact endsIn_of_raise (execConfig_illegal_length hillegal)
  · exact ⟨_, execConfig_legal_length hpos hmax, rfl, rfl, rfl, rfl, read_clear s.cur.eng.buf wl.toNat,
      win_unseeded (by simp), rfl, ⟨rfl, rfl, rfl, rfl, rfl, rfl, rfl⟩, complete_resp s _ _⟩

/-! ### The writers of WLEN -/

/-- Every effect but that of CONFIG leaves WLEN (R82). -/
theorem registerEffect_wlen {p : Part} {e e' : Engine} {i : Instr} {st : Status} {d : Word32}
    (h : RegisterEffect p e i e' st d) (hi : ∀ wl, i ≠ .config wl) : e'.wlen = e.wlen := by
  cases h with
  | error => rfl
  | config => exact absurd rfl (hi _)
  | seed => exact loaded_wlen ..
  | rotate => exact rotated_wlen ..
  | rotateChecked => exact rotated_wlen ..

/-- Settles O31: a CONFIG that answered OK wrote WL, and no other command has an effect on WLEN. -/
theorem onlyConfigWritesWlen : Obligations.OnlyConfigWritesWlen := by
  refine ⟨fun wl s => ⟨?_, ?_⟩, fun wl s t h hans => ?_, fun i s t hi h => ?_⟩
  · rintro ⟨t, h, hans⟩
    obtain ⟨hpos, hmax, -⟩ := configured_of_ok h hans
    exact ⟨hpos, hmax⟩
  · rintro ⟨hpos, hmax⟩
    exact ⟨_, execConfig_legal_length hpos hmax, complete_resp s _ _⟩
  · obtain ⟨-, -, heng⟩ := configured_of_ok h hans
    rw [heng, configured_wlen]
  · obtain ⟨-, -, _, _, -, heffect⟩ := exec_takesEffect h
    exact registerEffect_wlen heffect hi

end Sys2Proof.Machine
end

section
/-! PROOFS. The hash of a window (41_seed.md R85, R89): as a sum of terms, under a replaced byte, and with one byte more
at its end. -/

namespace Sys2Proof.Machine

/-! ### The sum of the terms -/

/-- The term of R85 for the byte at position `i` of a window of length `w`. -/
def windowTerm (T : Byte → Word32) (w : Nat) (win : List Byte) (i : Nat) : Word32 :=
  rotl32 (T (win.getD i 0)) ((w - 1 - i) % 32)

theorem hashTerms_singleton (T : Byte → Word32) (w i : Nat) (b : Byte) :
    hashTerms T w i [b] = rotl32 (T b) ((w - 1 - i) % 32) := by
  rw [hashTerms_cons, hashTerms_nil, BitVec.xor_zero]

/-- The first `k` terms of the hash, added one by one. -/
theorem hashTerms_take (T : Byte → Word32) (w : Nat) {win : List Byte} {k : Nat} (hk : k ≤ win.length) :
    hashTerms T w 0 (win.take k) = ((List.range k).map (windowTerm T w win)).foldl (· ^^^ ·) 0 := by
  induction k with
  | zero => rfl
  | succ k ih =>
    have hterm : hashTerms T w k [win[k]] = windowTerm T w win k := by
      rw [hashTerms_singleton, windowTerm, List.getD_eq_getElem]
    rw [List.take_succ_eq_append_getElem hk, hashTerms_append, ih (Nat.le_of_succ_le hk), List.length_take,
      min_eq_left (Nat.le_of_succ_le hk), Nat.zero_add, hterm, List.range_succ, List.map_append, List.foldl_append]
    rfl

theorem hashOf_eq_sum (T : Byte → Word32) (w : Nat) (win : List Byte) :
    hashOf T w win = ((List.range win.length).map (windowTerm T w win)).foldl (· ^^^ ·) 0 := by
  rw [← hashTerms_take T w le_rfl, List.take_length, hashOf]

/-! ### A replaced byte -/

theorem xor_replace_term (old new rest : Word32) : new ^^^ rest = old ^^^ rest ^^^ (old ^^^ new) := by
  rw [BitVec.xor_comm old rest, BitVec.xor_assoc rest, ← BitVec.xor_assoc old, BitVec.xor_self, BitVec.zero_xor,
    BitVec.xor_comm]

/-- Replacing a byte adds to the hash the difference of the two entries, rotated as its position says. -/
theorem hashTerms_set (T : Byte → Word32) (w j : Nat) {win : List Byte} {i : Nat} (hi : i < win.length) (b : Byte) :
    hashTerms T w j (win.set i b) = hashTerms T w j win ^^^ rotl32 (T win[i] ^^^ T b) ((w - 1 - (j + i)) % 32) := by
  induction win generalizing i j with
  | nil => exact absurd hi (Nat.not_lt_zero i)
  | cons a as ih =>
    cases i with
    | zero =>
      rw [List.set_cons_zero, hashTerms_cons, hashTerms_cons, rotl32_xor, List.getElem_cons_zero, Nat.add_zero j]
      exact xor_replace_term _ _ _
    | succ i =>
      have hplace : j + 1 + i = j + (i + 1) := by omega
      rw [List.set_cons_succ, hashTerms_cons, hashTerms_cons, ih (j + 1) (Nat.lt_of_succ_lt_succ hi),
        List.getElem_cons_succ, hplace, BitVec.xor_assoc]

/-- Two equal bytes at positions with the same rotation: replacing both by another byte adds the same word twice. -/
theorem hashOf_set_set (T : Byte → Word32) {w : Nat} {win : List Byte} {i j : Nat} (hi : i < win.length)
    (hj : j < win.length) (hne : i ≠ j) (hamount : (w - 1 - i) % 32 = (w - 1 - j) % 32) (heq : win[i] = win[j])
    (b : Byte) : hashOf T w ((win.set i b).set j b) = hashOf T w win := by
  rw [hashOf, hashTerms_set T w 0 (by rwa [List.length_set]), hashTerms_set T w 0 hi, List.getElem_set_ne hne, heq,
    Nat.zero_add, Nat.zero_add, hamount, BitVec.xor_assoc, BitVec.xor_self, BitVec.xor_zero, hashOf]

/-! ### One byte more -/

/-- A rotation of every entry of the table comes out of the hash. -/
theorem hashTerms_rotl32_table (T : Byte → Word32) (k w i : Nat) (bs : List Byte) :
    hashTerms (fun b => rotl32 (T b) k) w i bs = rotl32 (hashTerms T w i bs) k := by
  induction bs generalizing i with
  | nil => exact (rotl32_blank k).symm
  | cons b bs ih =>
    rw [hashTerms_cons, hashTerms_cons, ih, rotl32_xor, rotl32_rotl32, rotl32_rotl32, Nat.add_comm k]

/-- A term depends on its distance from the end of the window only. -/
theorem hashTerms_succ_succ (T : Byte → Word32) (w i : Nat) (bs : List Byte) :
    hashTerms T (w + 1) (i + 1) bs = hashTerms T w i bs := by
  induction bs generalizing i with
  | nil => rfl
  | cons b bs ih =>
    have hdistance : w + 1 - 1 - (i + 1) = w - 1 - i := by omega
    rw [hashTerms_cons, hashTerms_cons, hdistance, ih]

/-- One step of the recurrence of R89: a byte more at the end rotates the terms before it once and adds its own entry
unrotated. -/
theorem hashOf_append_singleton (T : Byte → Word32) (S : List Byte) (b : Byte) :
    hashOf T (S.length + 1) (S ++ [b]) = rotl32 (hashOf T S.length S) 1 ^^^ T b := by
  have hnewest : hashTerms T (S.length + 1) (0 + S.length) [b] = T b := by
    rw [hashTerms_singleton]
    exact rotl32_of_mod_eq_zero _ (by omega)
  have hbefore : rotl32 (hashOf T S.length S) 1 = hashTerms T (S.length + 1) 0 S := by
    rw [hashOf, ← hashTerms_succ_succ, rotl32_hashTerms_one T (by omega)]
  rw [hbefore, hashOf, hashTerms_append, hnewest]

/-- Settles O12, by induction from the end of the byte sequence: a step of the recurrence appends a byte. -/
theorem serialEvaluationGivesHash : Obligations.SerialEvaluationGivesHash := by
  intro T S
  induction S using List.reverseRecOn with
  | nil => rfl
  | append_singleton S b ih =>
    rw [List.foldl_concat, ih, List.length_append, List.length_singleton, hashOf_append_singleton]

/-- Settles O11: the sum term by term, its last term set apart, and two equal terms that cancel. -/
theorem hashIsXorOfRotatedTerms : Obligations.HashIsXorOfRotatedTerms := by
  rintro T w win hw rfl
  refine ⟨hashOf_eq_sum T win.length win, ?_, fun i m b hm hlt heq => ?_⟩
  · obtain ⟨S, o, rfl⟩ := (List.eq_nil_or_concat' win).resolve_left (List.length_pos_iff.1 hw)
    have hlast : (S ++ [o]).getD S.length 0 = o := by simp
    rw [List.length_append, List.length_singleton, hashOf_append_singleton, List.dropLast_concat, Nat.add_sub_cancel,
      hlast, hashOf, hashOf, hashTerms_rotl32_table]
  · have hi : i < win.length := by omega
    rw [List.getD_eq_getElem _ _ hi, List.getD_eq_getElem _ _ hlt] at heq
    exact (hashOf_set_set T hi hlt (by omega) (by omega) heq b).symm

end Sys2Proof.Machine
end

section
/-! PROOFS. SEED (41_seed.md R86 to R92): the word that carries it, what it does in every STATE, that it depends on its
first WLEN bytes alone, and the window of length 1 (R90, 42_rotate.md R103). -/

namespace Sys2Proof.Machine

/-! ### The SEED word -/

section
variable {c : Word64} {p : List Word64}

theorem decodeFrame_seed (hop : c.toNat / 2 ^ 60 = 2) (hrsv : c.toNat / 2 ^ 32 % 2 ^ 28 = 0) :
    decodeFrame c p = .ok (.seed (BitVec.ofNat 32 c.toNat) p) :=
  decodeFrame_ok_iff_fields.2 (.inr (.inl ⟨(opField_eq_iff c 2#4).2 hop, (rsv_zero_iff c).2 hrsv,
    by rw [argField_eq_ofNat]⟩))

/-- A command word of any opcode with a bit of RSV set decodes to nothing (R70). -/
theorem decodeFrame_reserved (hrsv : c.toNat / 2 ^ 32 % 2 ^ 28 ≠ 0) (i : Instr) : decodeFrame c p ≠ .ok i := by
  intro hdec
  have hzero : rsvField c = 0 := by
    obtain ⟨-, h, -⟩ | ⟨-, h, -⟩ | ⟨-, ⟨h, -⟩, -⟩ | ⟨-, ⟨h, -⟩, -⟩ := decodeFrame_ok hdec <;> exact h
  exact hrsv ((rsv_zero_iff c).1 hzero)

end

/-! ### SEED in every STATE -/

section
variable {n : Word32} {p : List Word64} {s : State}

/-- A SEED's window is the first WLEN bytes of its payload. -/
theorem seedBytes_take {w : Nat} (hn : w ≤ n.toNat) : (seedBytes n p).take w = (payloadBytes p).take w := by
  rw [seedBytes, List.take_take, min_eq_left hn]

theorem seedBytes_take_length {w : Nat} (hwf : (Instr.seed n p).wf = true) (hn : w ≤ n.toNat) :
    ((seedBytes n p).take w).length = w := by
  rw [List.length_take, seedBytes_length_wf hwf, min_eq_left hn]

/-- A SEED that answered OK loaded the first WLEN of its bytes (R86). -/
theorem loaded_of_ok {t : State} {d : Word32} (h : exec (.seed n p) s = .next t) (hans : s.Answers t .ok d) :
    ((seedBytes n p).take s.cur.eng.wlen.toNat).length = s.cur.eng.wlen.toNat ∧
      t.cur.eng = s.cur.eng.loaded (tableRead s.part) ((seedBytes n p).take s.cur.eng.wlen.toNat) := by
  rcases execSeed_cases h with ⟨-, rfl⟩ | ⟨-, -, rfl⟩ | ⟨-, -, hlen, -, rfl⟩
  · cases (answers_unique hans (raise_resp s _)).1
  · cases (answers_unique hans (raise_resp s _)).1
  · exact ⟨by rw [List.length_take, min_eq_left hlen], rfl⟩

end

/-- Settles O15: the word by its fields, then the three branches of SEED. -/
theorem seedLoadsWindowAndHash : Obligations.SeedLoadsWindowAndHash := by
  refine ⟨fun c p s hholds hop => ⟨fun hrsv => ?_, fun hrsv => ?_⟩,
    fun n p s hwf hinv => ⟨fun huncfg => ?_, fun hs hshort => ?_, fun hs hn => ?_⟩⟩
  · exact endsIllegal_of_not_decoded hholds (decodeFrame_reserved hrsv)
  · exact step_of_decoded hholds (decodeFrame_seed hop hrsv)
  · exact endsIn_of_raise (execSeed_unconfigured huncfg)
  · exact endsIn_of_raise (execSeed_short hs hshort)
  · have hlen := seedBytes_take_length hwf hn
    have hread := read_load s.cur.eng.buf ((seedBytes n p).take s.cur.eng.wlen.toNat)
    rw [hlen] at hread
    exact ⟨_, _, execSeed_enough hinv hwf hs hn, seedBytes_take hn, hlen, rfl, rfl, rfl, rfl, hread,
      win_loaded _ _ hlen, rfl, ⟨rfl, rfl, rfl, rfl, rfl, rfl, rfl⟩, complete_resp s _ _⟩

/-! ### The SEED of exactly WLEN bytes -/

/-- The SEED of a whole window loads it (R86). -/
theorem exec_seedOf {s : State} {win : List Byte} (hinv : s.cur.eng.Inv s.part) (hs : s.cur.eng.state ≠ .unconfigured)
    (hlen : win.length = s.cur.eng.wlen.toNat) :
    exec (seedOf win) s = .next (s.complete (s.cur.eng.loaded (tableRead s.part) win)
      (hashOf (tableRead s.part) s.cur.eng.wlen.toNat win)) := by
  have hlt : win.length < 2 ^ 32 := hlen ▸ s.cur.eng.wlen.isLt
  have hn : s.cur.eng.wlen.toNat ≤ (BitVec.ofNat 32 win.length).toNat := by
    rw [BitVec.toNat_ofNat, Nat.mod_eq_of_lt hlt, hlen]
  have hwin : (seedBytes (BitVec.ofNat 32 win.length) (packWords win)).take s.cur.eng.wlen.toNat = win := by
    rw [seedBytes_packWords hlt, ← hlen, List.take_length]
  have hloads := execSeed_enough hinv (seedOf_wf hlt) hs hn
  rw [hwin] at hloads
  exact hloads

/-- Settles O19: both SEEDs load the same window. -/
theorem overlongSeedUsesFirstBytes : Obligations.OverlongSeedUsesFirstBytes := by
  intro n p s hwf hinv hs hlong
  have hloads := execSeed_enough hinv hwf hs hlong.le
  exact ⟨hloads.trans (exec_seedOf hinv hs (seedBytes_take_length hwf hlong.le)).symm, _, hloads, complete_resp s _ _⟩

/-! ### Window length 1 -/

theorem hashOf_one (T : Byte → Word32) (b : Byte) : hashOf T 1 [b] = T b := by
  rw [hashOf, hashTerms_singleton, rotl32_of_mod_eq_zero _ rfl]

/-- With one byte in the window the leaving term is rotated as the hash is (R103). -/
theorem rotStep_one (T : Byte → Word32) (h : Word32) (l e : Byte) :
    rotStep T 1 h l e = T e ^^^ rotl32 (h ^^^ T l) 1 := by
  rw [rotStep, rotl32_mod, rotl32_xor, BitVec.xor_comm (T e)]

/-- Settles O20: SEED and ROTATE as for any window length, with the hash of one byte. -/
theorem windowOfLengthOne : Obligations.WindowOfLengthOne := by
  refine fun s hinv hone => ⟨fun hs b => ?_, fun o l e hs hwin hhash => ?_⟩
  · have hlen : [b].length = s.cur.eng.wlen.toNat := hone.symm
    have hentry : hashOf (tableRead s.part) s.cur.eng.wlen.toNat [b] = tableRead s.part b := by rw [hone, hashOf_one]
    refine ⟨_, exec_seedOf hinv hs hlen, hentry, win_loaded _ _ hlen, ?_⟩
    rw [← hentry]
    exact complete_resp s _ _
  · have hnew : (slideWindow l e s).cur.eng.hash =
        tableRead s.part e ^^^ rotl32 (tableRead s.part o ^^^ tableRead s.part l) 1 := by
      rw [slideWindow_eq, complete_eng, rotated_hash, hone, rotStep_one, hhash]
    refine ⟨_, execRotate_seeded l e hinv hs, ?_, fun hl => ?_, fun _ => hnew⟩
    · rw [slideWindow_eq, complete_eng, win_rotated hinv hs, hwin]
      rfl
    · rw [hnew, hl, BitVec.xor_self, rotl32_blank, BitVec.xor_zero]

/-! ### What a SEED leaves of the history -/

theorem tableRead_congr {p p' : Part} (h : p.rom = p'.rom) : tableRead p = tableRead p' := by
  funext b
  rw [tableRead, tableRead, h]

/-- Two registers with the same WLEN look alike once they have loaded the same window. -/
theorem loaded_sameView {e e' : Engine} (T : Byte → Word32) {win : List Byte} (hwlen : e.wlen = e'.wlen)
    (hlen : win.length = e.wlen.toNat) : (e.loaded T win).SameView (e'.loaded T win) := by
  refine ⟨rfl, hwlen, ?_, ?_⟩
  · rw [loaded_hash, loaded_hash, hwlen]
  · rw [win_loaded e T hlen, win_loaded e' T (hwlen ▸ hlen)]

/-- Settles O33: both SEEDs loaded the same window, with the same table and WLEN. -/
theorem seedForgetsHistory : Obligations.SeedForgetsHistory := by
  intro s s' n n' p p' t t' _ _ _ _ hrom hwlen hbytes h hans h' hans'
  obtain ⟨hlen, heng⟩ := loaded_of_ok h hans
  obtain ⟨-, heng'⟩ := loaded_of_ok h' hans'
  rw [← hwlen, ← hbytes, ← tableRead_congr hrom] at heng'
  rw [heng, heng']
  exact ⟨loaded_sameView _ hwlen hlen, rfl, rfl⟩

end Sys2Proof.Machine
end

section
/-! PROOFS. ROTATE and ROTATE_CHECKED (42_rotate.md R96, R97): the words that carry them, what they do in every STATE,
and what a slide of the window leaves (R99, R100, R102). -/

namespace Sys2Proof.Machine

/-- Settles O13: the term of the oldest byte cancels. -/
theorem rotStepCorrectForOldestByte : Obligations.RotStepCorrectForOldestByte :=
  fun T _ _ e _ hlen => rotStep_hashOf T hlen e

/-! ### The ROTATE and ROTATE_CHECKED words -/

/-- L is the lowest byte of the command word (30_encoding.md R64). -/
theorem leavingField_eq_ofNat (c : Word64) : leavingField c = BitVec.ofNat 8 c.toNat := by
  rw [← BitVec.toNat_inj, leavingField_toNat, BitVec.toNat_ofNat]

/-- E is the byte above L (R64). -/
theorem enteringField_eq_ofNat (c : Word64) : enteringField c = BitVec.ofNat 8 (c.toNat / 2 ^ 8) := by
  rw [← BitVec.toNat_inj, enteringField_toNat, BitVec.toNat_ofNat]

section
variable {c : Word64} {p : List Word64}

theorem decodeFrame_rotate (hop : c.toNat / 2 ^ 60 = 3) (hrsv : c.toNat / 2 ^ 16 % 2 ^ 44 = 0) :
    decodeFrame c p = .ok (.rotate (BitVec.ofNat 8 c.toNat) (BitVec.ofNat 8 (c.toNat / 2 ^ 8))) :=
  decodeFrame_ok_iff_fields.2 (.inr (.inr (.inl ⟨(opField_eq_iff c 3#4).2 hop, (rsv_rsvb_zero_iff c).2 hrsv,
    by rw [leavingField_eq_ofNat, enteringField_eq_ofNat]⟩)))

theorem decodeFrame_rotateChecked (hop : c.toNat / 2 ^ 60 = 4) (hrsv : c.toNat / 2 ^ 16 % 2 ^ 44 = 0) :
    decodeFrame c p = .ok (.rotateChecked (BitVec.ofNat 8 c.toNat) (BitVec.ofNat 8 (c.toNat / 2 ^ 8))) :=
  decodeFrame_ok_iff_fields.2 (.inr (.inr (.inr ⟨(opField_eq_iff c 4#4).2 hop, (rsv_rsvb_zero_iff c).2 hrsv,
    by rw [leavingField_eq_ofNat, enteringField_eq_ofNat]⟩)))

/-- A word of format B with a bit of RSV or RSVB set decodes to nothing (R70). -/
theorem decodeFrame_bytes_reserved (hop : c.toNat / 2 ^ 60 = 3 ∨ c.toNat / 2 ^ 60 = 4)
    (hrsv : c.toNat / 2 ^ 16 % 2 ^ 44 ≠ 0) (i : Instr) : decodeFrame c p ≠ .ok i := by
  intro hdec
  rw [← opField_toNat] at hop
  obtain ⟨hother, -⟩ | ⟨hother, -⟩ | ⟨-, hzero, -⟩ | ⟨-, hzero, -⟩ := decodeFrame_ok hdec
  · simp [hother] at hop
  · simp [hother] at hop
  · exact hrsv ((rsv_rsvb_zero_iff c).1 hzero)
  · exact hrsv ((rsv_rsvb_zero_iff c).1 hzero)

end

/-! ### What a slide leaves -/

section
variable (l e : Byte) (s : State)

@[simp] theorem slideWindow_eng : (slideWindow l e s).cur.eng = s.cur.eng.rotated (tableRead s.part) l e := rfl

theorem slideWindow_sameElsewhere : s.SameElsewhere (slideWindow l e s) := ⟨rfl, rfl, rfl, rfl, rfl, rfl, rfl⟩

theorem slideWindow_answers : s.Answers (slideWindow l e s) .ok (slideWindow l e s).cur.eng.hash :=
  complete_resp s _ _

/-- The new HASH, by the formula of R96. -/
theorem slideWindow_hash : (slideWindow l e s).cur.eng.hash =
    rotl32 s.cur.eng.hash 1 ^^^ rotl32 (tableRead s.part l) (s.cur.eng.wlen.toNat % 32) ^^^ tableRead s.part e := rfl

end

section
variable {s : State} (hinv : s.cur.eng.Inv s.part)
include hinv

theorem slideWindow_buf_read (l e : Byte) (j : Nat) : (slideWindow l e s).cur.eng.buf.read j =
    if j = s.cur.eng.ptr then e else s.cur.eng.buf.read j := by
  rw [slideWindow_eng, rotated_buf, read_write hinv.buf_wf]

variable (hs : s.cur.eng.state = .seeded)
include hs

theorem slideWindow_win (l e : Byte) : (slideWindow l e s).cur.eng.win = s.cur.eng.win.tail ++ [e] := by
  rw [slideWindow_eng, win_rotated hinv hs]

theorem head?_eq_headD_win : s.cur.eng.win.head? = some (s.cur.eng.win.headD 0) := by
  rw [List.headD_eq_head?_getD, win_head hinv hs, Option.getD_some]

/-- The entry PTR points at holds the oldest byte (10_state.md R28). -/
theorem read_ptr_eq_headD : s.cur.eng.buf.read s.cur.eng.ptr = s.cur.eng.win.headD 0 :=
  Option.some.inj ((win_head hinv hs).symm.trans (head?_eq_headD_win hinv hs))

/-! ### ROTATE_CHECKED by its leaving byte -/

theorem execRotateChecked_oldest {l : Byte} (hl : l = s.cur.eng.win.headD 0) (e : Byte) :
    execRotateChecked l e s = .next (slideWindow l e s) := by
  rw [execRotateChecked_seeded l e hinv hs, if_pos (hl.trans (read_ptr_eq_headD hinv hs).symm)]

theorem execRotateChecked_not_oldest {l : Byte} (hl : l ≠ s.cur.eng.win.headD 0) (e : Byte) :
    execRotateChecked l e s = .next (s.raise .eMismatch) := by
  rw [execRotateChecked_seeded l e hinv hs, if_neg fun h => hl (h.trans (read_ptr_eq_headD hinv hs))]

end

/-! ### The two commands -/

/-- Settles O16: the word by its fields, then the three branches of ROTATE. -/
theorem rotateSlidesWindow : Obligations.RotateSlidesWindow := by
  refine ⟨fun c p s hholds hop => ⟨fun hrsv => ?_, fun hrsv => ?_⟩,
    fun l e s hinv => ⟨fun huncfg => ?_, fun hunseeded => ?_, fun hs => ?_⟩⟩
  · exact endsIllegal_of_not_decoded hholds (decodeFrame_bytes_reserved (.inl hop) hrsv)
  · exact step_of_decoded hholds (decodeFrame_rotate hop hrsv)
  · exact endsIn_of_raise (execRotate_unconfigured l e huncfg)
  · exact endsIn_of_raise (execRotate_unseeded l e hunseeded)
  · exact ⟨_, execRotate_seeded l e hinv hs, slideWindow_hash l e s, rfl, hs, rfl, slideWindow_buf_read hinv l e,
      slideWindow_win hinv hs l e, rfl, slideWindow_sameElsewhere l e s, slideWindow_answers l e s⟩

/-- Settles O17: the word by its fields, then the branches of ROTATE_CHECKED; the branch of the right leaving byte is
ROTATE's. -/
theorem rotateCheckedVerifiesLeavingByte : Obligations.RotateCheckedVerifiesLeavingByte := by
  refine ⟨fun c p s hholds hop => ⟨fun hrsv => ?_, fun hrsv => ?_⟩, fun l e s hinv => ⟨fun huncfg => ?_,
    fun hunseeded => ?_, fun hs => ⟨read_ptr_eq_headD hinv hs, fun hl => ?_, fun hl => ?_⟩⟩⟩
  · exact endsIllegal_of_not_decoded hholds (decodeFrame_bytes_reserved (.inr hop) hrsv)
  · exact step_of_decoded hholds (decodeFrame_rotateChecked hop hrsv)
  · exact endsIn_of_raise (execRotateChecked_unconfigured l e huncfg)
  · exact endsIn_of_raise (execRotateChecked_unseeded l e hunseeded)
  · exact endsIn_of_raise (execRotateChecked_not_oldest hinv hs hl e)
  · have hcons : s.cur.eng.Consistent s.part → (slideWindow l e s).cur.eng.Consistent s.part := fun h =>
      rotated_consistent hinv h hs (hl ▸ head?_eq_headD_win hinv hs) e
    exact ⟨_, execRotateChecked_oldest hinv hs hl e, slideWindow_hash l e s, rfl, hs, rfl,
      slideWindow_buf_read hinv l e, slideWindow_win hinv hs l e, hcons, rfl, slideWindow_sameElsewhere l e s,
      slideWindow_answers l e s, execRotate_seeded l e hinv hs⟩

/-! ### The length of the window -/

/-- A rotation of either kind that answered OK wrote the registers of R96. -/
theorem rotated_of_ok {l e : Byte} {s t : State} {i : Instr} {d : Word32}
    (hi : i = .rotate l e ∨ i = .rotateChecked l e) (h : exec i s = .next t) (hans : s.Answers t .ok d) :
    t.cur.eng = s.cur.eng.rotated (tableRead s.part) l e := by
  obtain ⟨-, -, st, d', hans', heffect⟩ := exec_takesEffect h
  obtain ⟨rfl, -⟩ := answers_unique hans hans'
  generalize t.cur.eng = e' at heffect ⊢
  cases heffect with
  | error hst => exact absurd rfl hst
  | config => simp at hi
  | seed => simp at hi
  | rotate =>
    obtain ⟨rfl, rfl⟩ : _ = l ∧ _ = e := by simpa using hi
    rfl
  | rotateChecked =>
    obtain ⟨rfl, rfl⟩ : _ = l ∧ _ = e := by simpa using hi
    rfl

/-- Settles O18: both windows have WLEN bytes, and a rotation leaves WLEN. -/
theorem rotationKeepsWindowLength : Obligations.RotationKeepsWindowLength := by
  intro l e s t i hi hinv hs h hans
  rw [rotated_of_ok hi h hans]
  exact ⟨win_rotated hinv hs _ l e, win_length hs, win_length (e := s.cur.eng.rotated _ l e) hs⟩

/-! ### The rotation of the leaving term -/

/-- Settles O21: the formula of R96, at a WLEN that is a multiple of 32 and at 33. -/
theorem cancelAmountIsModulo32 : Obligations.CancelAmountIsModulo32 := by
  refine fun l e s hinv hs =>
    ⟨_, execRotate_seeded l e hinv hs, slideWindow_hash l e s, fun hmultiple => ?_, fun h33 => ?_⟩
  · rw [slideWindow_hash, hmultiple, rotl32_of_mod_eq_zero (k := 0) _ rfl]
  · rw [slideWindow_hash, h33]

end Sys2Proof.Machine
end

section
/-! PROOFS. After a wrong leaving byte (42_rotate.md R98): HASH is off from the hash of the window by a word that each
rotation rotates once and that a right leaving byte does not touch. And a rotation that keeps HASH (R104). -/

namespace Sys2Proof.Machine

/-! ### The rotate-update of a hash that is off -/

theorem rotl32_eq_zero_iff (x : Word32) (k : Nat) : rotl32 x k = 0#32 ↔ x = 0#32 := by
  refine ⟨fun h => ?_, fun h => by rw [h, rotl32_blank]⟩
  have hback := congrArg (rotl32 · (32 - k % 32)) h
  rwa [rotl32_rotl32, rotl32_of_mod_eq_zero x (by omega), rotl32_blank] at hback

/-- What the hash was off by is rotated once. -/
theorem rotStep_xor (T : Byte → Word32) (w : Nat) (h D : Word32) (l e : Byte) :
    rotStep T w (h ^^^ D) l e = rotStep T w h l e ^^^ rotl32 D 1 := by
  rw [rotStep, rotStep, rotl32_xor]
  ac_rfl

/-- Another leaving byte changes the hash by the difference of the two entries, rotated as the leaving term is. -/
theorem rotStep_other_leaving (T : Byte → Word32) (w : Nat) (h : Word32) (l o e : Byte) :
    rotStep T w h l e = rotStep T w h o e ^^^ rotl32 (T l ^^^ T o) (w % 32) := by
  have hterm : rotl32 (T o) (w % 32) ^^^ rotl32 (T l ^^^ T o) (w % 32) = rotl32 (T l) (w % 32) := by
    rw [rotl32_xor, xor_xor_cancel_comm_assoc]
  rw [rotStep, rotStep, ← hterm]
  ac_rfl

/-! ### Registers whose HASH is off -/

/-- SEEDED, with a HASH that differs from the hash of the window by exactly `D`. -/
def Engine.OffBy (p : Part) (e : Engine) (D : Word32) : Prop :=
  e.state = .seeded ∧ e.hash = hashOf (tableRead p) e.wlen.toNat e.win ^^^ D

section
variable {p : Part} {e : Engine} {D : Word32}

theorem offBy_zero (hs : e.state = .seeded) (hcons : e.Consistent p) : e.OffBy p 0#32 :=
  ⟨hs, (hcons hs).trans BitVec.xor_zero.symm⟩

theorem not_consistent_of_offBy (hoff : e.OffBy p D) (hD : D ≠ 0) : ¬ e.Consistent p := by
  obtain ⟨hs, hhash⟩ := hoff
  intro hcons
  exact hD (xor_left_eq_self_iff.1 (hhash.symm.trans (hcons hs)))

variable (hinv : e.Inv p) {o : Byte} (ho : e.win.head? = some o)
include hinv ho

/-- A rotation with the leaving byte `l` where the oldest byte is `o`. -/
theorem rotated_offBy (hoff : e.OffBy p D) (l b : Byte) : (e.rotated (tableRead p) l b).OffBy p
    (rotl32 D 1 ^^^ rotl32 (tableRead p l ^^^ tableRead p o) (e.wlen.toNat % 32)) := by
  obtain ⟨hs, hhash⟩ := hoff
  obtain ⟨rest, hwin⟩ := List.head?_eq_some_iff.1 ho
  have hlen : (o :: rest).length = e.wlen.toNat := hwin ▸ win_length hs
  refine ⟨hs, ?_⟩
  rw [rotated_hash, rotated_wlen, win_rotated hinv hs, hhash, hwin, rotStep_xor, rotStep_other_leaving _ _ _ l o,
    rotStep_hashOf _ hlen, List.tail_cons]
  ac_rfl

/-- With the right leaving byte the discrepancy is only rotated. -/
theorem rotated_offBy_oldest (hoff : e.OffBy p D) (b : Byte) :
    (e.rotated (tableRead p) o b).OffBy p (rotl32 D 1) := by
  have hrotated := rotated_offBy hinv ho hoff o b
  rwa [BitVec.xor_self, rotl32_blank, BitVec.xor_zero] at hrotated

/-- The first wrong leaving byte. -/
theorem rotated_offBy_of_consistent (hs : e.state = .seeded) (hcons : e.Consistent p) (l b : Byte) :
    (e.rotated (tableRead p) l b).OffBy p (rotl32 (tableRead p l ^^^ tableRead p o) (e.wlen.toNat % 32)) := by
  have hrotated := rotated_offBy hinv ho (offBy_zero hs hcons) l b
  rwa [rotl32_blank, BitVec.zero_xor] at hrotated

end

/-! ### Rotations with right leaving bytes -/

theorem rollOver_cons {s t : State} {e : Byte} {es : List Byte}
    (h : exec (.rotate (s.cur.eng.win.headD 0) e) s = .next t) : rollOver (e :: es) s = rollOver es t := by
  rw [rollOver, h]

/-- Rotations with right leaving bytes complete, and each rotates the discrepancy once. -/
theorem rollOver_offBy (es : List Byte) {s : State} {D : Word32} (hinv : s.cur.eng.Inv s.part)
    (hoff : s.cur.eng.OffBy s.part D) : ∃ u, rollOver es s = .next u ∧ u.part = s.part ∧
      u.cur.eng.wlen = s.cur.eng.wlen ∧ u.cur.eng.OffBy s.part (rotl32 D es.length) := by
  induction es generalizing s D with
  | nil => exact ⟨s, rfl, rfl, rfl, by rwa [List.length_nil, rotl32_of_mod_eq_zero _ rfl]⟩
  | cons e es ih =>
    have hs := hoff.1
    have hnext := rotated_offBy_oldest hinv (head?_eq_headD_win hinv hs) hoff e
    obtain ⟨u, hroll, hpart, hwlen, hu⟩ :=
      ih (s := slideWindow (s.cur.eng.win.headD 0) e s) (rotated_inv hinv _ _ e hs) hnext
    have hamount : rotl32 (rotl32 D 1) es.length = rotl32 D (e :: es).length := by
      rw [rotl32_rotl32, List.length_cons, Nat.add_comm]
    exact ⟨u, (rollOver_cons (execRotate_seeded _ e hinv hs)).trans hroll, hpart, hwlen, hamount ▸ hu⟩

/-- Settles O22: the wrong leaving byte puts HASH off, right ones rotate the discrepancy, SEED and CONFIG write HASH
anew. -/
theorem wrongLeavingByteGivesExactDiscrepancy : Obligations.WrongLeavingByteGivesExactDiscrepancy := by
  intro s hinv hs hcons l e o ho _
  have hoff := rotated_offBy_of_consistent hinv ho hs hcons l e
  refine ⟨_, _, execRotate_seeded l e hinv hs, slideWindow_answers l e s, rfl, slideWindow_win hinv hs l e, hoff.2,
    ?_, fun es => ?_, fun n p u h hans => ?_, fun wl u h hans => ?_⟩
  · exact (rotl32_eq_zero_iff _ _).trans BitVec.xor_eq_zero_iff
  · obtain ⟨u, hroll, hpart, hwlen, hu⟩ :=
      rollOver_offBy es (s := slideWindow l e s) (rotated_inv hinv _ l e hs) hoff
    refine ⟨u, hroll, ?_, fun hD => ?_⟩
    · have hhash := hu.2
      rwa [hwlen] at hhash
    · exact hpart ▸ not_consistent_of_offBy hu (mt (rotl32_eq_zero_iff _ _).1 hD)
  · obtain ⟨hlen, heng⟩ := loaded_of_ok h hans
    obtain ⟨⟨hpart, -⟩, -⟩ := exec_takesEffect h
    rw [heng, hpart]
    exact loaded_consistent hlen
  · obtain ⟨-, -, heng⟩ := configured_of_ok h hans
    rw [heng]
    exact ⟨rfl, win_unseeded (by simp)⟩

/-! ### A rotation that keeps the hash -/

theorem slideWindow_keeps_hash_iff (l e : Byte) (s : State) :
    (slideWindow l e s).cur.eng.hash = s.cur.eng.hash ↔ rotl32 s.cur.eng.hash 1 ^^^ s.cur.eng.hash =
      rotl32 (tableRead s.part l) (s.cur.eng.wlen.toNat % 32) ^^^ tableRead s.part e := by
  rw [slideWindow_hash, BitVec.xor_assoc, xor_eq_iff_right_eq, eq_comm]

/-- Hardware of one instance, idle, with the registers `e`. -/
def State.single (p : Part) (e : Engine) : State :=
  { State.resetOf p 0 with cur := { Inst.reset with eng := e } }

theorem single_inv {p : Part} {e : Engine} (hp : p.Legal) (he : e.Inv p) : (State.single p e).Inv where
  part := hp
  insts i hi := by
    rw [List.mem_singleton.1 hi]
    exact ⟨he, nofun, Nat.zero_le _, fun hrx => absurd rfl hrx, nofun⟩
  waiting := nofun
  inReset := nofun

/-- A part whose table maps each byte to its own number: its entries are pairwise different. -/
def countingPart : Part := { wmax := 2, respDepth := 1, rom := Vector.ofFn fun b => BitVec.ofNat 32 b.val }

/-- That part after CONFIG 2 and SEED 0, 1. -/
def counting01 : State :=
  State.single countingPart ((Engine.reset.configured 2).loaded (tableRead countingPart) [0, 1])

theorem counting01_inv : counting01.Inv :=
  single_inv (by decide)
    (loaded_inv (configured_inv (reset_engine_inv _) (by decide) (by decide)) _ (by decide) rfl)

theorem counting01_eng_inv : counting01.cur.eng.Inv counting01.part := (counting01_inv.insts _ (cur_mem_insts _)).eng

theorem counting01_win : counting01.cur.eng.win = [0, 1] := win_loaded _ _ rfl

theorem tableRead_counting01 (b : Byte) : tableRead counting01.part b = BitVec.ofNat 32 b.toNat :=
  Vector.get_ofFn _ _

theorem counting01_hash : counting01.cur.eng.hash = 1 := by
  have hhash : counting01.cur.eng.hash = hashOf (tableRead counting01.part) 2 [0, 1] := rfl
  rw [hhash, hashOf, hashTerms_cons, hashTerms_singleton, tableRead_counting01, tableRead_counting01]
  decide

/-- Settles O23: R96's formula solved for an unchanged hash. With TABLE[b] = b, ROTATE 0, 3 takes the window 0, 1 with
hash 1 to the window 1, 3, and rotl32(1, 1) ^ 1 = 3 = rotl32(TABLE[0], 2) ^ TABLE[3]. -/
theorem rotationMayKeepHash : Obligations.RotationMayKeepHash := by
  refine ⟨fun l e s hinv hs => ⟨_, execRotate_seeded l e hinv hs, slideWindow_answers l e s,
    slideWindow_keeps_hash_iff l e s⟩, ?_⟩
  refine ⟨counting01, _, 0, 3, counting01_inv, rfl, loaded_consistent rfl, ?_,
    execRotate_seeded 0 3 counting01_eng_inv rfl, ?_, (slideWindow_keeps_hash_iff _ _ _).2 ?_⟩
  · rw [counting01_win]
    rfl
  · rw [slideWindow_win counting01_eng_inv rfl, counting01_win]
    decide
  · rw [counting01_hash, tableRead_counting01, tableRead_counting01]
    decide

end Sys2Proof.Machine
end

section
/-! PROOFS. The core law (42_rotate.md R101): CONFIG, SEED and rotations along a byte sequence, one command at a time,
keep the window the slice of the sequence reached so far, HASH its hash, and one OK response a command. -/

namespace Sys2Proof.Machine

/-! ### Commands one after the other -/

theorem execAll_cons {i : Instr} {s t : State} (h : exec i s = .next t) (is : List Instr) :
    execAll (i :: is) s = execAll is t := by
  rw [execAll, h]

theorem execAll_concat {is : List Instr} {s t : State} (h : execAll is s = .next t) (i : Instr) :
    execAll (is ++ [i]) s = exec i t := by
  induction is generalizing s with
  | nil =>
    cases h
    rw [List.nil_append, execAll]
    cases exec i t <;> rfl
  | cons j is ih =>
    rw [execAll] at h
    rw [List.cons_append, execAll]
    cases hj : exec j s with
    | next u =>
      rw [hj] at h
      exact ih h
    | fault r => simp [hj] at h
    | refused r => simp [hj] at h

/-! ### Slices of a byte sequence -/

section
variable {S : List Byte} {w i : Nat} (hw : 1 ≤ w) (hi : i + w < S.length)
include hw hi

/-- The oldest byte of the slice at `i`, and the others. -/
theorem slice_eq_cons : (S.drop i).take w = S.getD i 0 :: (S.drop (i + 1)).take (w - 1) := by
  have hlt : i < S.length := by omega
  rw [List.drop_eq_getElem_cons hlt, List.getD_eq_getElem _ _ hlt, List.take_cons hw]

/-- The slice at `i + 1` is the others and the next byte of the sequence. -/
theorem slice_succ : (S.drop (i + 1)).take w = ((S.drop i).take w).tail ++ [S.getD (i + w) 0] := by
  obtain ⟨v, rfl⟩ : ∃ v, w = v + 1 := ⟨w - 1, by omega⟩
  have hlt : v < (S.drop (i + 1)).length := by rw [List.length_drop]; omega
  have hplace : i + 1 + v = i + (v + 1) := by omega
  rw [slice_eq_cons hw hi, List.tail_cons, Nat.add_sub_cancel, List.take_succ_eq_append_getElem hlt,
    List.getElem_drop, ← hplace, List.getD_eq_getElem]

end

/-! ### Rotations along the sequence -/

/-- ROTATE_CHECKED or ROTATE. -/
def rotation (checked : Bool) (l e : Byte) : Instr := if checked then .rotateChecked l e else .rotate l e

/-- With the right leaving byte both rotations slide the window. -/
theorem exec_rotation (checked : Bool) {s : State} {l : Byte} (hinv : s.cur.eng.Inv s.part)
    (hs : s.cur.eng.state = .seeded) (hl : s.cur.eng.win.head? = some l) (e : Byte) :
    exec (rotation checked l e) s = .next (slideWindow l e s) := by
  cases checked with
  | false => exact execRotate_seeded l e hinv hs
  | true =>
    have holdest : l = s.cur.eng.win.headD 0 := Option.some.inj (hl.symm.trans (head?_eq_headD_win hinv hs))
    exact execRotateChecked_oldest hinv hs holdest e

/-- The rotations that take the window of length `w` from the start of `S` to offset `i`. -/
def rotationsAlong (checked : Bool) (S : List Byte) (w i : Nat) : List Instr :=
  (List.range i).map fun k => rotation checked (S.getD k 0) (S.getD (k + w) 0)

theorem rotationsAlong_succ (checked : Bool) (S : List Byte) (w i : Nat) : rotationsAlong checked S w (i + 1) =
    rotationsAlong checked S w i ++ [rotation checked (S.getD i 0) (S.getD (i + w) 0)] := by
  rw [rotationsAlong, List.range_succ, List.map_append]
  rfl

/-- A response that reports success, for the host `host`. -/
def okResponse (host : Nat) (data : Word32) : Response := { host := host, word := responseWord .ok data }

/-- `t` is `s` with the window `win` of length `w` loaded and hashed, after `n` commands that all succeeded, the last
of which answered the hash. -/
structure Hashed (s : State) (w : Nat) (win : List Byte) (n : Nat) (t : State) : Prop where
  part : t.part = s.part
  owner : t.cur.owner = s.cur.owner
  inv : t.cur.eng.Inv t.part
  seeded : t.cur.eng.state = .seeded
  wlen : t.cur.eng.wlen.toNat = w
  win : t.cur.eng.win = win
  consistent : t.cur.eng.Consistent t.part
  resp : ∃ before : List Word32, before.length + 1 = n ∧
    t.cur.resp = s.cur.resp ++ (before ++ [t.cur.eng.hash]).map (okResponse s.cur.owner)

theorem Hashed.hash {s t : State} {w n : Nat} {win : List Byte} (h : Hashed s w win n t) :
    t.cur.eng.hash = hashOf (tableRead s.part) w win := by
  rw [h.consistent h.seeded, h.part, h.wlen, h.win]

/-- CONFIG and SEED of a window of legal length. -/
theorem config_seed_hashed {s : State} {w : Nat} {win : List Byte} (hpart : s.part.Legal)
    (hinv : s.cur.eng.Inv s.part) (hw : 1 ≤ w) (hmax : w ≤ s.part.wmax) (hlen : win.length = w) :
    ∃ t, (∀ is, execAll (.config (BitVec.ofNat 32 w) :: seedOf win :: is) s = execAll is t) ∧
      Hashed s w win 2 t := by
  obtain ⟨-, hlimit, -⟩ := hpart
  have hw32 : (BitVec.ofNat 32 w).toNat = w := by rw [BitVec.toNat_ofNat]; omega
  have hwinlen : win.length = (BitVec.ofNat 32 w).toNat := hlen.trans hw32.symm
  have hconfigured := configured_inv hinv (wl := BitVec.ofNat 32 w) (by omega) (by omega)
  have hconfig : exec (.config (BitVec.ofNat 32 w)) s =
      .next (s.complete (s.cur.eng.configured (BitVec.ofNat 32 w)) 0) := execConfig_legal_length (by omega) (by omega)
  have hseed := exec_seedOf (s := s.complete (s.cur.eng.configured (BitVec.ofNat 32 w)) 0) hconfigured (by simp) hwinlen
  refine ⟨_, fun is => (execAll_cons hconfig _).trans (execAll_cons hseed is), ?_⟩
  exact { part := rfl
          owner := rfl
          inv := loaded_inv hconfigured _ (by simp) hwinlen
          seeded := rfl
          wlen := hw32
          win := win_loaded _ _ hwinlen
          consistent := loaded_consistent hwinlen
          resp := ⟨[0], rfl, by simp [okResponse]⟩ }

/-- A rotation with the right leaving byte moves the window on and adds a response. -/
theorem hashed_slideWindow {s t : State} {w n : Nat} {win : List Byte} {l : Byte} (h : Hashed s w win n t)
    (hl : win.head? = some l) (e : Byte) : Hashed s w (win.tail ++ [e]) (n + 1) (slideWindow l e t) := by
  obtain ⟨before, hcount, hresp⟩ := h.resp
  have hnew : (slideWindow l e t).cur.resp =
      t.cur.resp ++ [okResponse s.cur.owner (slideWindow l e t).cur.eng.hash] := h.owner ▸ slideWindow_answers l e t
  exact { part := h.part
          owner := h.owner
          inv := rotated_inv h.inv _ l e h.seeded
          seeded := h.seeded
          wlen := h.wlen
          win := h.win ▸ slideWindow_win h.inv h.seeded l e
          consistent := rotated_consistent h.inv h.consistent h.seeded (h.win ▸ hl) e
          resp := ⟨before ++ [t.cur.eng.hash], by rw [List.length_append, List.length_singleton, hcount], by
            rw [hnew, hresp, List.append_assoc, List.map_append (l₁ := before ++ [_]), List.map_singleton]⟩ }

/-- By induction on the offset: each rotation takes the slice at `i` to the slice at `i + 1`. -/
theorem rotationsAlong_hashed (checked : Bool) {s t : State} {S : List Byte} {w : Nat} (hw : 1 ≤ w)
    (h : Hashed s w (S.take w) 2 t) (i : Nat) (hi : i + w ≤ S.length) :
    ∃ u, execAll (rotationsAlong checked S w i) t = .next u ∧ Hashed s w ((S.drop i).take w) (i + 2) u := by
  induction i with
  | zero => exact ⟨t, rfl, by rwa [List.drop_zero]⟩
  | succ i ih =>
    obtain ⟨u, hexec, hu⟩ := ih (by omega)
    have holdest : ((S.drop i).take w).head? = some (S.getD i 0) := by
      rw [slice_eq_cons hw (by omega), List.head?_cons]
    refine ⟨slideWindow (S.getD i 0) (S.getD (i + w) 0) u, ?_, ?_⟩
    · rw [rotationsAlong_succ, execAll_concat hexec, exec_rotation checked hu.inv hu.seeded (hu.win ▸ holdest)]
    · rw [slice_succ hw (by omega), Nat.add_right_comm]
      exact hashed_slideWindow hu holdest _

/-- Settles O24: the window is loaded, then moved along the sequence; the responses are those of `Hashed`. -/
theorem rollingEqualsHashingDirectly : Obligations.RollingEqualsHashingDirectly := by
  intro checked s S w i hpart hinv hw hmax hi
  have hlen : (S.take w).length = w := by rw [List.length_take]; omega
  obtain ⟨t, hload, ht⟩ := config_seed_hashed hpart hinv hw hmax hlen
  obtain ⟨u, hroll, hu⟩ := rotationsAlong_hashed checked hw ht i hi
  obtain ⟨before, hcount, hresp⟩ := hu.resp
  refine ⟨u, (hload _).trans hroll, hu.hash, hu.win, ?_, ?_, fun r hr => ?_⟩
  · rw [hresp, List.length_append, List.length_map, List.length_append, List.length_singleton, hcount]
    omega
  · rw [hresp, List.map_append, ← List.append_assoc, List.map_singleton, List.getLast?_concat, hu.hash, okResponse]
  · rw [hresp, List.drop_left] at hr
    obtain ⟨d, -, rfl⟩ := List.mem_map.1 hr
    exact ⟨d, rfl⟩

end Sys2Proof.Machine
end

section
/-! PROOFS. The hardware goes on (60_exceptions.md R110, R127): under the invariant every step has a next state, and
idle hardware stays as it is. -/

namespace Sys2Proof.Machine

/-- Under the invariant a command that is fetched is one the selected port has accepted with its whole payload. -/
theorem holds_of_fetch {s u : State} {r : Except Reject Instr} (hinv : s.Inv) (h : s.fetch = some (r, u)) :
    ∃ c p, s.Holds c p := by
  obtain ⟨⟨c, p, missing⟩, hrst, hrx, hmissing, -, -⟩ := fetch_eq_some h
  obtain rfl : missing = 0 := hmissing
  have hframe := (hinv.insts _ (cur_mem_insts s)).frame _ hrx
  exact ⟨c, p, hrst, hrx, (Nat.zero_add _).symm.trans hframe⟩

theorem step_of_fetch_none {s : State} (h : s.fetch = none) : step s = .next s.hostStep := by
  rw [step, h]

/-- Progress: under the invariant every step has a next state. -/
theorem step_completes {s : State} (hinv : s.Inv) : ∃ t, step s = .next t := by
  cases hfetch : s.fetch with
  | none => exact ⟨_, step_of_fetch_none hfetch⟩
  | some fetched =>
    obtain ⟨c, p, hholds⟩ := holds_of_fetch hinv hfetch
    obtain ⟨t, -, -, hstep, -⟩ := everyCommandAnswersOnce s c p hholds (hinv.insts _ (cur_mem_insts s)).eng
    exact ⟨t, hstep⟩

/-- Settles O50, by induction on the length of the run: the invariant gives the next step, and the step keeps it. -/
theorem engineNeverStops : Obligations.EngineNeverStops := by
  intro s hinv n
  induction n generalizing s with
  | zero => exact ⟨s, run_zero s⟩
  | succ n ih =>
    obtain ⟨u, hstep⟩ := step_completes hinv
    obtain ⟨t, hrun⟩ := ih u (stepKeepsInvariant s u hinv hstep)
    exact ⟨t, (run_succ_of_next hstep).trans hrun⟩

/-- Settles O47, by induction on the number of steps: each leaves the state as it is. -/
theorem idleHardwareHoldsState : Obligations.IdleHardwareHoldsState := by
  intro s n hfetch hinputs
  have hidle : step s = .next s := by rw [step_of_fetch_none hfetch, State.hostStep, hinputs]
  induction n with
  | zero => exact run_zero s
  | succ n ih => exact (run_succ_of_next hidle).trans ih

end Sys2Proof.Machine
end

section
/-! PROOFS. The status a command ends in (60_exceptions.md R112 to R117, R119): for decoded commands a function of the
registers, for command words the first row of the priority table that applies. -/

namespace Sys2Proof.Machine

/-! ### The status of a decoded command -/

/-- The status of the command `i` on the registers `e` of an instance of the part `p`. -/
def commandStatus (p : Part) (e : Engine) : Instr → Status
  | .config wl => if wl.toNat = 0 ∨ p.wmax < wl.toNat then .eConfig else .ok
  | .seed n _ =>
    if e.state = .unconfigured then .eNoConfig else if n.toNat < e.wlen.toNat then .eShort else .ok
  | .rotate _ _ =>
    if e.state = .unconfigured then .eNoConfig else if e.state = .unseeded then .eUninit else .ok
  | .rotateChecked l _ =>
    if e.state = .unconfigured then .eNoConfig else if e.state = .unseeded then .eUninit
    else if l ≠ e.buf.read e.ptr then .eMismatch else .ok

theorem exec_answers_commandStatus {i : Instr} {s t : State} (h : exec i s = .next t) :
    ∃ d, s.Answers t (commandStatus s.part s.cur.eng i) d := by
  cases i with
  | config wl =>
    have hzero : wl = 0 ↔ wl.toNat = 0 := BitVec.toNat_inj.symm
    rcases execConfig_cases h with ⟨hlen, rfl⟩ | ⟨hlen, rfl⟩ <;> rw [hzero] at hlen
    · exact ⟨0, by rw [commandStatus, if_pos hlen]; rfl⟩
    · exact ⟨0, by rw [commandStatus, if_neg hlen]; rfl⟩
  | seed n payload =>
    rcases execSeed_cases h with ⟨hs, rfl⟩ | ⟨hs, hn, rfl⟩ | ⟨hs, hn, -, -, rfl⟩
    · exact ⟨0, by rw [commandStatus, if_pos hs]; rfl⟩
    · exact ⟨0, by rw [commandStatus, if_neg hs, if_pos hn]; rfl⟩
    · exact ⟨_, by rw [commandStatus, if_neg hs, if_neg (Nat.not_lt.2 hn)]; rfl⟩
  | rotate l e =>
    rcases execRotate_cases h with ⟨hs, rfl⟩ | ⟨hs, rfl⟩ | ⟨hs, -, rfl⟩
    · exact ⟨0, by rw [commandStatus, hs]; rfl⟩
    · exact ⟨0, by rw [commandStatus, hs]; rfl⟩
    · exact ⟨_, by rw [commandStatus, hs]; rfl⟩
  | rotateChecked l e =>
    rcases execRotateChecked_cases h with ⟨hs, rfl⟩ | ⟨hs, rfl⟩ | ⟨hs, -, ⟨hl, rfl⟩ | ⟨hl, rfl⟩⟩
    · exact ⟨0, by rw [commandStatus, hs]; rfl⟩
    · exact ⟨0, by rw [commandStatus, hs]; rfl⟩
    · exact ⟨0, by rw [commandStatus, hs, if_pos hl]; rfl⟩
    · exact ⟨_, by rw [commandStatus, hs, if_neg (not_not.2 hl)]; rfl⟩

/-- The response of a completed command has that status and no other. -/
theorem status_eq_commandStatus {i : Instr} {s t : State} {st : Status} {d : Word32} (h : exec i s = .next t)
    (hans : s.Answers t st d) : st = commandStatus s.part s.cur.eng i := by
  obtain ⟨d', hans'⟩ := exec_answers_commandStatus h
  exact (answers_unique hans hans').1

/-! ### The causes of the errors -/

section
variable (p : Part) (e : Engine) (i : Instr)

/-- No decoded command ends in E_ILLEGAL (R116). -/
theorem commandStatus_ne_eIllegal : commandStatus p e i ≠ .eIllegal := by
  cases i <;> simp [commandStatus, ite_eq_iff]

/-- The cause of E_CONFIG (R112). -/
theorem commandStatus_eq_eConfig_iff :
    commandStatus p e i = .eConfig ↔ ∃ wl, i = .config wl ∧ (wl.toNat = 0 ∨ p.wmax < wl.toNat) := by
  cases i with
  | config wl => by_cases hlen : wl.toNat = 0 ∨ p.wmax < wl.toNat <;> simp [commandStatus, hlen]
  | _ => simp [commandStatus, ite_eq_iff]

/-- The cause of E_SHORT (R113). -/
theorem commandStatus_eq_eShort_iff : commandStatus p e i = .eShort ↔
    e.state ≠ .unconfigured ∧ ∃ n payload, i = .seed n payload ∧ n.toNat < e.wlen.toNat := by
  cases i with
  | seed n payload => by_cases hs : e.state = .unconfigured <;> simp [commandStatus, hs]
  | _ => simp [commandStatus, ite_eq_iff]

/-- The cause of E_UNINIT (R114). -/
theorem commandStatus_eq_eUninit_iff : commandStatus p e i = .eUninit ↔
    e.state = .unseeded ∧ ∃ l b, i = .rotate l b ∨ i = .rotateChecked l b := by
  cases i with
  | rotate l b => cases hs : e.state <;> simp [commandStatus, hs]
  | rotateChecked l b => cases hs : e.state <;> simp [commandStatus, hs, ite_eq_iff]
  | _ => simp [commandStatus, ite_eq_iff]

/-- The cause of E_MISMATCH (R115): under the invariant BUF[PTR] is WIN[0]. -/
theorem commandStatus_eq_eMismatch_iff (hinv : e.Inv p) : commandStatus p e i = .eMismatch ↔
    e.state = .seeded ∧ ∃ l b, i = .rotateChecked l b ∧ e.win.head? ≠ some l := by
  cases i with
  | rotateChecked l b =>
    cases hs : e.state with
    | unconfigured => simp [commandStatus, hs]
    | unseeded => simp [commandStatus, hs]
    | seeded => simp [commandStatus, hs, win_head hinv hs, eq_comm]
  | _ => simp [commandStatus, ite_eq_iff]

/-- The cause of E_NOCONFIG (R117). -/
theorem commandStatus_eq_eNoConfig_iff : commandStatus p e i = .eNoConfig ↔
    e.state = .unconfigured ∧ ∀ wl, i ≠ .config wl := by
  cases i with
  | config wl => simp [commandStatus, ite_eq_iff]
  | seed n payload => by_cases hs : e.state = .unconfigured <;> simp [commandStatus, hs, ite_eq_iff]
  | rotate l b => cases hs : e.state <;> simp [commandStatus, hs]
  | rotateChecked l b => cases hs : e.state <;> simp [commandStatus, hs, ite_eq_iff]

end

/-- Settles O25: the status answered is the status of the command, which is each error exactly on its cause. -/
theorem errorsExactlyOnTheirCauses : Obligations.ErrorsExactlyOnTheirCauses := by
  refine ⟨⟨rfl, rfl, rfl, rfl, rfl⟩, fun i s t st d hinv hexec hans => ?_⟩
  rw [status_eq_commandStatus hexec hans]
  exact ⟨commandStatus_eq_eConfig_iff _ _ _, commandStatus_eq_eShort_iff _ _ _, commandStatus_eq_eUninit_iff _ _ _,
    commandStatus_eq_eMismatch_iff _ _ _ hinv, commandStatus_eq_eNoConfig_iff _ _ _⟩

/-! ### Legal command words -/

/-- A command word with a defined opcode whose reserved field is zero (30_encoding.md R69, R70). -/
def LegalWord (c : Word64) : Prop :=
  ((c.toNat / 2 ^ 60 = 1 ∨ c.toNat / 2 ^ 60 = 2) ∧ c.toNat / 2 ^ 32 % 2 ^ 28 = 0) ∨
    ((c.toNat / 2 ^ 60 = 3 ∨ c.toNat / 2 ^ 60 = 4) ∧ c.toNat / 2 ^ 16 % 2 ^ 44 = 0)

section
variable {c : Word64} {p : List Word64}

/-- The words that decode are the legal ones: each row of the opcode map tests its opcode and its reserved field. -/
theorem decodeFrame_ok_iff_legalWord : (∃ i, decodeFrame c p = .ok i) ↔ LegalWord c := by
  constructor
  · rintro ⟨i, hdec⟩
    rcases decodeFrame_ok hdec with ⟨hop, hrsv, -⟩ | ⟨hop, hrsv, -⟩ | ⟨hop, hrsv, -⟩ | ⟨hop, hrsv, -⟩ <;>
      rw [opField_eq_iff] at hop
    · exact .inl ⟨.inl hop, (rsv_zero_iff c).1 hrsv⟩
    · exact .inl ⟨.inr hop, (rsv_zero_iff c).1 hrsv⟩
    · exact .inr ⟨.inl hop, (rsv_rsvb_zero_iff c).1 hrsv⟩
    · exact .inr ⟨.inr hop, (rsv_rsvb_zero_iff c).1 hrsv⟩
  · rintro (⟨hop | hop, hrsv⟩ | ⟨hop | hop, hrsv⟩)
    · exact ⟨_, decodeFrame_config hop hrsv⟩
    · exact ⟨_, decodeFrame_seed hop hrsv⟩
    · exact ⟨_, decodeFrame_rotate hop hrsv⟩
    · exact ⟨_, decodeFrame_rotateChecked hop hrsv⟩

theorem endsIllegal_of_not_legalWord {s : State} (hholds : s.Holds c p) (h : ¬ LegalWord c) : s.EndsIllegal :=
  endsIllegal_of_not_decoded hholds fun i hdec => h (decodeFrame_ok_iff_legalWord.1 ⟨i, hdec⟩)

end

/-- Settles O5: an illegal word decodes to nothing; a legal one to a command, whose status is not E_ILLEGAL. -/
theorem illegalWordsEndInEIllegal : Obligations.IllegalWordsEndInEIllegal := by
  intro s c p hholds op legal
  refine ⟨endsIllegal_of_not_legalWord hholds, fun hlegal t hstep d hans => ?_, fun hop => ⟨?_, ?_⟩, rfl⟩
  · obtain ⟨i, hdec⟩ := decodeFrame_ok_iff_legalWord.2 hlegal
    rw [step_of_decoded hholds hdec] at hstep
    exact commandStatus_ne_eIllegal _ _ _ (status_eq_commandStatus hstep hans).symm
  · omega
  · exact (commandLengthFromFirstWord c).1 (by omega)

/-! ### The first error that applies -/

/-- The priority table of R119, on the bits of the command word `c` and the registers `e` of an instance of the part
`p`. -/
def firstApplicable (p : Part) (e : Engine) (c : Word64) : Status :=
  let op := c.toNat / 2 ^ 60
  let low := c.toNat % 2 ^ 32
  if ¬ (1 ≤ op ∧ op ≤ 4) ∨ c.toNat / 2 ^ 32 % 2 ^ 28 ≠ 0 ∨ (3 ≤ op ∧ c.toNat / 2 ^ 16 % 2 ^ 16 ≠ 0) then .eIllegal
  else if op ≠ 1 ∧ e.state = .unconfigured then .eNoConfig
  else if op = 1 ∧ (low = 0 ∨ p.wmax < low) then .eConfig
  else if op = 2 ∧ low < e.wlen.toNat then .eShort
  else if (op = 3 ∨ op = 4) ∧ e.state = .unseeded then .eUninit
  else if op = 4 ∧ e.win.head? ≠ some (BitVec.ofNat 8 low) then .eMismatch
  else .ok

/-- The first row of the table is the words that are not legal. -/
theorem not_legalWord_iff (c : Word64) : ¬ LegalWord c ↔
    ¬ (1 ≤ c.toNat / 2 ^ 60 ∧ c.toNat / 2 ^ 60 ≤ 4) ∨ c.toNat / 2 ^ 32 % 2 ^ 28 ≠ 0 ∨
      (3 ≤ c.toNat / 2 ^ 60 ∧ c.toNat / 2 ^ 16 % 2 ^ 16 ≠ 0) := by
  rw [LegalWord]
  omega

theorem firstApplicable_of_illegal (p : Part) (e : Engine) {c : Word64} (h : ¬ LegalWord c) :
    firstApplicable p e c = .eIllegal := if_pos ((not_legalWord_iff c).1 h)

theorem leavingField_eq_ofNat_low (c : Word64) : leavingField c = BitVec.ofNat 8 (c.toNat % 2 ^ 32) := by
  rw [← BitVec.toNat_inj, leavingField_toNat, BitVec.toNat_ofNat]
  omega

/-- For a word that decodes, the rows of the table that can apply are those of its command. -/
theorem firstApplicable_of_decoded {p : Part} {e : Engine} {c : Word64} {payload : List Word64} {i : Instr}
    (hinv : e.Inv p) (hdec : decodeFrame c payload = .ok i) : firstApplicable p e c = commandStatus p e i := by
  have hlegal := decodeFrame_ok_iff_legalWord.1 ⟨i, hdec⟩
  rw [firstApplicable, if_neg fun hrow => (not_legalWord_iff c).2 hrow hlegal]
  rcases decodeFrame_ok hdec with ⟨hop, -, rfl⟩ | ⟨hop, -, rfl⟩ | ⟨hop, -, rfl⟩ | ⟨hop, -, rfl⟩ <;>
    rw [← opField_toNat, hop]
  · simp [commandStatus, argField_toNat]
  · simp [commandStatus, argField_toNat]
  · simp [commandStatus]
  · rw [← leavingField_eq_ofNat_low]
    cases hs : e.state with
    | unconfigured => simp [commandStatus, hs]
    | unseeded => simp [commandStatus, hs]
    | seeded => simp [commandStatus, hs, win_head hinv hs, eq_comm]

/-- Settles O27: a legal word completes with the status of its command, which is the first row that applies; the others
fall under the first row of all. -/
theorem firstApplicableErrorIsReported : Obligations.FirstApplicableErrorIsReported := by
  intro s c p hholds hinv
  suffices h : ∃ t d, step s = .next t ∧ s.SameElsewhere t ∧ s.Answers t (firstApplicable s.part s.cur.eng c) d from h
  by_cases hlegal : LegalWord c
  · obtain ⟨i, hdec⟩ := (decodeFrame_ok_iff_legalWord (p := p)).2 hlegal
    obtain ⟨hwf, -⟩ := (decode_iff_encode_of_holds hholds).1 hdec
    obtain ⟨t, hexec⟩ := exec_completes (s := s.consumed) hwf hinv
    obtain ⟨hsame, -⟩ := exec_takesEffect hexec
    obtain ⟨d, hans⟩ := exec_answers_commandStatus hexec
    rw [firstApplicable_of_decoded hinv hdec]
    exact ⟨t, d, (step_of_decoded hholds hdec).trans hexec, hsame, hans⟩
  · obtain ⟨t, hstep, -, -, hsame, hans⟩ := endsIllegal_of_not_legalWord hholds hlegal
    rw [firstApplicable_of_illegal _ _ hlegal]
    exact ⟨t, 0, hstep, hsame, hans⟩

end Sys2Proof.Machine
end

section
/-! PROOFS. A command that ends in an error (60_exceptions.md R111, R121, 70_reset_and_hazards.md R136): it writes
nothing, so the next command finds the registers as they were. -/

namespace Sys2Proof.Machine

/-! ### What an error leaves -/

/-- The only effect with a status other than OK is none. -/
theorem registerEffect_of_error {p : Part} {e e' : Engine} {i : Instr} {st : Status} {d : Word32}
    (h : RegisterEffect p e i e' st d) (hst : st ≠ .ok) : e' = e ∧ d = 0 := by
  cases h with
  | error => exact ⟨rfl, rfl⟩
  | _ => exact absurd rfl hst

/-- A command that answers an error writes no register (R111). -/
theorem exec_error_keeps_registers {i : Instr} {s t : State} {st : Status} {d : Word32} (h : exec i s = .next t)
    (hans : s.Answers t st d) (hst : st ≠ .ok) :
    t.cur.eng = s.cur.eng ∧ d = 0 ∧ t.cur.rx = s.cur.rx ∧ s.SameElsewhere t := by
  obtain ⟨hsame, hrx, st', d', hans', heffect⟩ := exec_takesEffect h
  obtain ⟨rfl, rfl⟩ := answers_unique hans hans'
  obtain ⟨heng, hd⟩ := registerEffect_of_error heffect hst
  exact ⟨heng, hd, hrx, hsame⟩

/-- Settles O26: a command that answers an error has no effect, and neither has an illegal word. -/
theorem errorsWriteNoState : Obligations.ErrorsWriteNoState := by
  intro s t c p st d hholds hstep hans hst
  by_cases hlegal : LegalWord c
  · obtain ⟨i, hdec⟩ := decodeFrame_ok_iff_legalWord.2 hlegal
    rw [step_of_decoded hholds hdec] at hstep
    exact exec_error_keeps_registers hstep hans hst
  · obtain ⟨t', hstep', heng, hrx, hsame, hans'⟩ := endsIllegal_of_not_legalWord hholds hlegal
    obtain rfl := Host.Outcome.next.inj (hstep'.symm.trans hstep)
    obtain ⟨-, hd⟩ := answers_unique hans hans'
    exact ⟨heng, hd, hrx, hsame⟩

/-! ### The next command -/

/-- The outcome `o'` from `s'` repeats the outcome `o` from `s`: the same fault, or the same registers and the same
response, whatever responses wait. -/
def Repeats (s s' : State) (o o' : Host.Outcome State Fault Refusal) : Prop :=
  (∀ u, o = .next u → ∃ v, o' = .next v ∧ v.cur.eng = u.cur.eng ∧
    ∃ r, u.cur.resp = s.cur.resp ++ [r] ∧ v.cur.resp = s'.cur.resp ++ [r]) ∧
  ∀ f, o = .fault f → o' = .fault f

theorem fault_repeats (s s' : State) (f : Fault) : Repeats s s' (.fault f) (.fault f) := ⟨nofun, fun _ => id⟩

section
variable {s s' : State} (howner : s.cur.owner = s'.cur.owner)

include howner in
theorem complete_repeats (e : Engine) (d : Word32) :
    Repeats s s' (.next (s.complete e d)) (.next (s'.complete e d)) := by
  refine ⟨fun u hu => ?_, nofun⟩
  obtain rfl := Host.Outcome.next.inj hu
  exact ⟨_, rfl, rfl, _, complete_resp s e d, by rw [complete_resp, howner]⟩

variable (heng : s.cur.eng = s'.cur.eng) (hpart : s.part = s'.part)

include howner heng in
theorem raise_repeats (st : Status) : Repeats s s' (.next (s.raise st)) (.next (s'.raise st)) := by
  refine ⟨fun u hu => ?_, nofun⟩
  obtain rfl := Host.Outcome.next.inj hu
  exact ⟨_, rfl, heng.symm, _, raise_resp s st, by rw [raise_resp, howner]⟩

include hpart in
theorem withBufIndex_repeats (j : Nat) {o o' : Host.Outcome State Fault Refusal} (h : Repeats s s' o o') :
    Repeats s s' (withBufIndex s j o) (withBufIndex s' j o') := by
  rw [withBufIndex, withBufIndex, ← hpart]
  split
  · exact h
  · exact fault_repeats s s' _

include howner heng hpart

theorem slideWindow_repeats (l e : Byte) :
    Repeats s s' (.next (slideWindow l e s)) (.next (slideWindow l e s')) := by
  rw [slideWindow_eq, slideWindow_eq, ← hpart, ← heng]
  exact complete_repeats howner _ _

theorem execConfig_repeats (wl : Word32) : Repeats s s' (execConfig wl s) (execConfig wl s') := by
  rw [execConfig, execConfig, ← hpart, ← heng]
  split
  · exact raise_repeats howner heng _
  · exact complete_repeats howner _ _

theorem execSeed_repeats (n : Word32) (payload : List Word64) :
    Repeats s s' (execSeed n payload s) (execSeed n payload s') := by
  rw [execSeed, execSeed, ← heng]
  split
  · exact raise_repeats howner heng _
  · split
    · exact raise_repeats howner heng _
    · split
      · exact fault_repeats s s' _
      · rw [seedWindow, seedWindow, ← heng, ← hpart]
        exact withBufIndex_repeats hpart _ (complete_repeats howner _ _)

theorem execRotate_repeats (l e : Byte) : Repeats s s' (execRotate l e s) (execRotate l e s') := by
  rw [execRotate, execRotate, ← heng]
  split
  · exact raise_repeats howner heng _
  · exact raise_repeats howner heng _
  · exact withBufIndex_repeats hpart _ (slideWindow_repeats howner heng hpart l e)

theorem execRotateChecked_repeats (l e : Byte) :
    Repeats s s' (execRotateChecked l e s) (execRotateChecked l e s') := by
  rw [execRotateChecked, execRotateChecked, ← heng]
  split
  · exact raise_repeats howner heng _
  · exact raise_repeats howner heng _
  · refine withBufIndex_repeats hpart _ ?_
    split
    · exact slideWindow_repeats howner heng hpart l e
    · exact raise_repeats howner heng _

/-- What a command does is decided by the part, the registers and the owner of the port. -/
theorem exec_repeats (i : Instr) : Repeats s s' (exec i s) (exec i s') := by
  cases i with
  | config wl => exact execConfig_repeats howner heng hpart wl
  | seed n payload => exact execSeed_repeats howner heng hpart n payload
  | rotate l e => exact execRotate_repeats howner heng hpart l e
  | rotateChecked l e => exact execRotateChecked_repeats howner heng hpart l e

end

/-- Settles O29: the failed command leaves the part, the registers and the owner of the port, which decide the next. -/
theorem failedCommandIsTransparent : Obligations.FailedCommandIsTransparent := by
  intro i j s t st d hexec hans hst
  obtain ⟨heng, -, -, hpart, -, -, -, -, howner, -⟩ := exec_error_keeps_registers hexec hans hst
  exact exec_repeats howner.symm heng.symm hpart.symm j

end Sys2Proof.Machine
end

section
/-! PROOFS. When the first word of a command is accepted (70_reset_and_hazards.md R139), and reset: the state it leaves
(R131) and what its assertion and release do (R130, R132). -/

namespace Sys2Proof.Machine

/-! ### The first word of a command -/

/-- With room for a response, the word a host offers starts a frame as long as the word says. -/
theorem offer_starts_command {s : State} (hrst : s.rst = false) (hrx : s.cur.rx = none)
    (hroom : s.cur.resp.length < s.part.respDepth) (h : Nat) (w : Word64) :
    s.offer h w = s.receiving h { header := w, payload := [], missing := commandLength w - 1 } s.inputs := by
  rw [commandLength, Nat.add_sub_cancel_left]
  exact offer_header hrst hrx hroom h w s.inputs

/-- Without room for a response, no command starts (log 9). -/
theorem offer_of_full {s : State} (hrx : s.cur.rx = none) (hfull : s.part.respDepth ≤ s.cur.resp.length)
    (h : Nat) (w : Word64) : s.offer h w = s := by
  have hbusy : s.cur.ready s.part h = false := by simp [Inst.ready, hrx, hfull]
  rw [offer_eq, if_neg (by simp [hbusy])]

/-- Settles O42: a free port is ready exactly when a response has room. -/
theorem headerAcceptedExactlyWhenRoom : Obligations.HeaderAcceptedExactlyWhenRoom := by
  intro s h w hrst hrx
  refine ⟨fun hroom => ?_, fun hfull => offer_of_full hrx hfull h w⟩
  rw [offer_starts_command hrst hrx hroom]
  exact ⟨rfl, rfl, rfl, rfl⟩

/-! ### The state after reset -/

theorem resetOf_insts (p : Part) (more : Nat) :
    (State.resetOf p more).insts = List.replicate (more + 1) Inst.reset := rfl

/-- The free numbers from which the parameters are made give legal ones (R6, R139). -/
theorem config_part_legal : Config.part.Legal := by
  have hwmax : Config.part.wmax = 1 + Config.wmaxFree % (2 ^ 32 - 1) := rfl
  have hdepth : Config.part.respDepth = 1 + Config.respDepthFree := rfl
  rw [Part.Legal, hwmax, hdepth]
  omega

/-- Settles O46: every instance of a reset state is `Inst.reset`. -/
theorem resetStateValues : Obligations.ResetStateValues := by
  refine ⟨⟨Config.moreEngines, rfl⟩, config_part_legal, ?_, fun p more => ⟨?_, rfl, fun i hi => ?_⟩⟩
  · rw [State.reset, resetOf_insts, List.length_replicate, Config.nEngines, Nat.add_comm]
  · rw [resetOf_insts, List.length_replicate]
  · rw [resetOf_insts] at hi
    rw [List.eq_of_mem_replicate hi]
    exact ⟨rfl, rfl, rfl, rfl, rfl, rfl, rfl⟩

/-- Hardware of a legal part, with every instance in reset, meets the invariant. -/
theorem inv_of_all_reset {s : State} (hpart : s.part.Legal) (hreset : ∀ i ∈ s.insts, i = Inst.reset) : s.Inv where
  part := hpart
  insts i hi := hreset i hi ▸ reset_inst_inv _
  waiting i hi f hf := by
    rw [hreset i (mem_insts_of_other hi)] at hf
    exact nomatch hf
  inReset _ := hreset

theorem resetOf_inv {p : Part} (hp : p.Legal) (more : Nat) : (State.resetOf p more).Inv :=
  inv_of_all_reset hp fun _ hi => List.eq_of_mem_replicate (resetOf_insts p more ▸ hi)

/-- Settles O48: reset states are reset on every instance, and the parameters of `State.reset` are legal. -/
theorem resetMeetsInvariant : Obligations.ResetMeetsInvariant :=
  ⟨resetOf_inv config_part_legal _, fun _ more hp => resetOf_inv hp more⟩

/-! ### The `rst` input -/

/-- With no command waiting, a step is the next host event. -/
theorem step_of_event {s : State} {ev : HostEvent} {rest : List HostEvent} (hfetch : s.fetch = none)
    (hin : s.inputs = ev :: rest) : step s = .next (({ s with inputs := rest } : State).apply ev) := by
  rw [step_of_fetch_none hfetch, State.hostStep, hin]

/-- While `rst` is asserted no port accepts a word (R130). -/
theorem offer_of_rst {s : State} (hrst : s.rst = true) (h : Nat) (w : Word64) : s.offer h w = s := by
  rw [offer_eq, if_neg (by simp [hrst])]

/-- So an offered word moves nothing, whichever instance it is offered to. -/
theorem apply_send_of_rst {s : State} (hrst : s.rst = true) (h k : Nat) (w : Word64) :
    (s.apply (.send h k w)).insts = s.insts ∧ (s.apply (.send h k w)).rst = true ∧
      (s.apply (.send h k w)).inputs = s.inputs := by
  rw [State.apply]
  split
  · exact ⟨rfl, hrst, rfl⟩
  · next t hsel =>
    obtain ⟨-, hrst', hinputs, -⟩ := select_fields hsel
    rw [hrst] at hrst'
    rw [offer_of_rst hrst']
    exact ⟨select_insts hsel, hrst', hinputs⟩

/-- Settles O45: what the host events on `rst` do, what an offered word does before its release, and after. -/
theorem resetEventResetsEveryInstance : Obligations.ResetEventResetsEveryInstance := by
  intro s rest hfetch
  refine ⟨fun hin => ?_, fun h k w hrst hin _ => ?_, fun hin => step_of_event hfetch hin,
    fun h w hrst hcur ⟨_, _, hdepth⟩ => ?_⟩
  · have hinsts := assertReset_insts { s with inputs := rest }
    refine ⟨_, step_of_event hfetch hin, rfl, ?_, fun i hi => ?_, rfl, rfl⟩
    · exact (congrArg List.length hinsts).trans List.length_replicate
    · exact List.eq_of_mem_replicate (hinsts ▸ hi)
  · exact ⟨_, step_of_event hfetch hin, apply_send_of_rst (s := { s with inputs := rest }) hrst h k w⟩
  · have hrx : s.cur.rx = none := by rw [hcur]; rfl
    have hroom : s.cur.resp.length < s.part.respDepth := by rw [hcur]; exact hdepth
    rw [offer_starts_command hrst hrx hroom]
    rfl

end Sys2Proof.Machine
end
